-- ==== Sys2Proof/Word.lean ====
section
/-! DEFINITION. The data types of the engine: bytes, host words, host offsets, byte arrays of a fixed length (R4, R10, R12, R13, R50). -/

namespace Sys2Proof

/-- R12: 'A byte is an unsigned 8-bit value in [0, 255].' Addition and subtraction of bytes wrap modulo 256. -/
abbrev Byte := BitVec 8

/-- R10, R53: the host data width is 32 bits. -/
abbrev Word := BitVec 32

/-- R10, R50: the host register space has 12-bit byte addresses (offsets). -/
abbrev Addr := BitVec 12

/-- R13: an internal array of `n` bytes, indexed from 0. -/
abbrev Bytes (n : Nat) := Vector Byte n

end Sys2Proof
end

