-- ==== Sys2Proof/Syntax.lean ====
section
/-! DEFINITION. The four commands (R80), one constructor for each row of spec/opcode_table.json. -/

namespace Sys2Proof

/-- R80: 'The engine has exactly four commands'. The fields of KEYEXP are the assembler's operands (R88): numbers, which
`Instr.wellFormed` bounds by what the 8-bit fields KLEN and RREQ can hold. -/
inductive Instr where
  /-- TBLGEN: build the EXP and LOG tables (R100). -/
  | tblgen
  /-- KEYEXP: expand the raw key of length `klen` (R120). `rounds` is the round count supplied in RREQ when RSEL = 1, and
  `none` when RSEL = 0 (R83: a supplied 0 and 'no value' differ). -/
  | keyexp (klen : Nat) (rounds : Option Nat)
  /-- ENC: encrypt the block in DIN (R150). -/
  | enc
  /-- DEC: decrypt the block in DIN (R180). -/
  | dec
  deriving DecidableEq, Repr

end Sys2Proof
end

