-- ==== Sys2Proof/WellFormed.lean ====
section
/-! DEFINITION. Which instructions can be encoded (R84, R85, R88). -/

namespace Sys2Proof

/-- R85, R88: `klen` is an integer in [0, 255]. -/
def Instr.klenFits : Instr → Bool
  | .tblgen => true
  | .keyexp klen _ => decide (klen ≤ 255)
  | .enc => true
  | .dec => true

/-- R84, R88: a supplied round count is an integer in [0, 255]. -/
def Instr.roundsFit : Instr → Bool
  | .tblgen => true
  | .keyexp _ none => true
  | .keyexp _ (some r) => decide (r ≤ 255)
  | .enc => true
  | .dec => true

/-- R88: 'An assembler refuses a value outside that range, since it cannot be encoded'. -/
def Instr.wellFormed (i : Instr) : Bool := i.klenFits && i.roundsFit

end Sys2Proof
end

