-- ==== Sys2Proof/Decode.lean ====
section
/-! DEFINITION. The decoder of a command word (R81 to R87), total, and after it the encoder (R88). -/

namespace Sys2Proof

/-- Why a command word is no command. -/
inductive DecodeError where
  /-- R82, R86: the OP field is 0x0 or 0x5 to 0xF. -/
  | illegalOp (op : BitVec 4)
  deriving DecidableEq, Repr

/-- R81: OP, bits 3:0. -/
def fieldOp (w : Word) : BitVec 4 := w.extractLsb' 0 4

/-- R81: RSEL, bit 8. -/
def fieldRsel (w : Word) : Bool := w.getLsbD 8

/-- R81: RREQ, bits 23:16. -/
def fieldRreq (w : Word) : Byte := w.extractLsb' 16 8

/-- R81: KLEN, bits 31:24. -/
def fieldKlen (w : Word) : Byte := w.extractLsb' 24 8

/-- R83: 'RSEL = 0 means the round count is omitted ... RSEL = 1 means the round count is zext(RREQ)'. -/
def fieldRounds (w : Word) : Option Nat := if fieldRsel w then some (fieldRreq w).toNat else none

/-- R82, R87: 'Every 32-bit value decodes to exactly one of five outcomes: TBLGEN, KEYEXP, ENC, DEC or illegal.' -/
def decode (w : Word) : Except DecodeError Instr :=
  if fieldOp w = 0x1#4 then .ok .tblgen
  else if fieldOp w = 0x2#4 then .ok (.keyexp (fieldKlen w).toNat (fieldRounds w))
  else if fieldOp w = 0x3#4 then .ok .enc
  else if fieldOp w = 0x4#4 then .ok .dec
  else .error (.illegalOp (fieldOp w))

/-- The command word whose bits are `w`, numbered as spec/opcode_table.json numbers them; bits at `nbits` and above are 0. -/
def commandWord (nbits w : Nat) : Word := BitVec.ofNat 32 (w % 2 ^ nbits)

/-- The instruction the decoder reads from an opcode-table word (one 32-bit word, R81). -/
def decodeTableWord (nbits w : Nat) : Option Instr :=
  match decode (commandWord nbits w) with
  | .ok i => some i
  | .error _ => none

/-- R82: the opcode of an instruction. -/
def opcodeOf : Instr → BitVec 4
  | .tblgen => 0x1#4
  | .keyexp _ _ => 0x2#4
  | .enc => 0x3#4
  | .dec => 0x4#4

/-- R88: the command word of a well-formed instruction; every ignored bit is written as 0. -/
def encode : Instr → Word
  | .tblgen => 0x00000001#32
  | .keyexp klen none => (BitVec.ofNat 32 klen <<< 24) ||| 0x00000002#32
  | .keyexp klen (some rounds) =>
      (BitVec.ofNat 32 klen <<< 24) ||| (BitVec.ofNat 32 rounds <<< 16) ||| 0x00000100#32 ||| 0x00000002#32
  | .enc => 0x00000003#32
  | .dec => 0x00000004#32

/-- R88: the assembler, which refuses an operand outside [0, 255]. -/
def assemble (i : Instr) : Option Word := if i.wellFormed then some (encode i) else none

end Sys2Proof
end

