-- ==== Sys2Proof/Config.lean ====
section
/-! DEFINITION. What is fixed for the machine: the parameters of R4 to R9, the OPEN parameters of R210 and R249, and the source of free values. -/

namespace Sys2Proof.Config

/-- R5: the generator constant GEN. -/
def gen : Nat := 45

/-- R5: the modulus MOD, a prime. -/
def modulus : Nat := 257

/-- R6: the maximum resolved round count MAX_ROUNDS. -/
def maxRounds : Nat := 13

/-- R7: the default round count for a raw key of at most 8 bytes. -/
def defaultRoundsShort : Nat := 8

/-- R7: the default round count for a longer raw key. -/
def defaultRoundsLong : Nat := 10

/-- R8: SK_MAX, the size of the subkey store. -/
def skMax : Nat := 216

/-- R8: SK_LEN(R), the number of subkey bytes of a schedule for round count `r`. -/
def skLen (r : Nat) : Nat := 8 + 16 * r

/-- R9: KEY_MAX_BYTES, how many raw key bytes take part at most. -/
def keyMaxBytes : Nat := 16

/-- R9: ROT_INIT, the rotation of Step 2. -/
def rotInit : Nat := 5

/-- R9: ROT_ROUND, the rotation of Step 3. -/
def rotRound : Nat := 6

/-- The source of FREE VALUES (logs 4 and 5): the `n`-th value drawn, at width `w`. It has no body, so nothing can be proved of
what it answers. R54 draws an UNSPECIFIED read from it, R35 the internal registers a command leaves behind. -/
opaque freeBits (w : Nat) : Nat → BitVec w

/-- R210: the platform parameter ENGINE_BASE, OPEN (log 14). -/
opaque engineBase : Nat

/-- R249: T_TBLGEN, OPEN (log 13). -/
opaque tTblgen : Nat

/-- R249: T_KEYEXP(R), OPEN (log 13). -/
opaque tKeyexp : Nat → Nat

/-- R249: T_ENC(R), OPEN (log 13). -/
opaque tEnc : Nat → Nat

/-- R249: T_DEC(R), OPEN (log 13). -/
opaque tDec : Nat → Nat

/-- R249: T_ERR, the latency of a failing or illegal command, OPEN (log 13). -/
opaque tErr : Nat

end Sys2Proof.Config
end

