-- ==== Sys2Proof/Machine/State.lean ====
section
/-! DEFINITION. The state of the engine, its host and the platform, as plain data (R20 to R37), and the state after reset (R231). -/

namespace Sys2Proof.Machine

/-- R201: the result codes of STATUS.ERR. Codes 5, 6 and 7 are 'never written' and have no name here (log 7). -/
inductive ErrCode where
  /-- 0: the last command succeeded, or no command has completed since reset. -/
  | ok
  /-- 1, ILLEGAL_CMD: the OP field named no command. -/
  | illegalCmd
  /-- 2, NO_TABLE: KEYEXP was issued while TBL_VALID = 0. -/
  | noTable
  /-- 3, INVALID_ROUND_COUNT: KEYEXP was issued with RSEL = 1 and RREQ = 0. -/
  | invalidRoundCount
  /-- 4, NO_SCHEDULE: ENC or DEC was issued while SCHED_VALID = 0. -/
  | noSchedule
  deriving DecidableEq, Repr

/-- R35: the eight working lanes; 'They are named a, b, c, d, e, f, g, h for L[0] to L[7].' -/
structure Lanes where
  a : Byte
  b : Byte
  c : Byte
  d : Byte
  e : Byte
  f : Byte
  g : Byte
  h : Byte
  deriving DecidableEq, Repr

/-- R89: a name a host program assigns with `RD off -> name`; names are numbered (log 3). -/
abbrev HostName := Nat

/-- R89: the value operand of `WR off, v`: a literal word, or the value of a name read before (as in `LDBLK c` after
`RDBLK -> c`). -/
inductive HostVal where
  | lit (w : Word)
  | var (x : HostName)
  deriving DecidableEq, Repr

/-- The access widths the host interface does not have (R53). -/
inductive NarrowWidth where
  | byte
  | halfword
  deriving DecidableEq, Repr

/-- What the host does in one turn (R89, R53). -/
inductive HostOp where
  /-- `WR off, v` (R55). -/
  | wr (off : Addr) (v : HostVal)
  /-- `RD off -> name` (R54). -/
  | rd (off : Addr) (x : HostName)
  /-- One pass of the loop of `POLL` (R89): read STATUS into `x` and stay while its bit 0 is 1. -/
  | poll (x : HostName)
  /-- An access narrower than 32 bits, which is outside the interface (R53). -/
  | narrow (width : NarrowWidth) (off : Addr)
  deriving DecidableEq, Repr

/-- Whose turn it is: the host, the engine (R250) or the platform's reset input (R230). -/
inductive Turn where
  | host
  | engine
  | reset
  deriving DecidableEq, Repr

/-- The whole state (R20). INVENTORY.md lists each field with its rule and reset value. -/
structure State where
  /-- STATUS.BUSY (R23). -/
  busy : Bool
  /-- STATUS.TBL_VALID (R24). -/
  tblValid : Bool
  /-- STATUS.SCHED_VALID (R25). -/
  schedValid : Bool
  /-- STATUS.ERR (R26). -/
  err : ErrCode
  /-- STATUS.ROUNDS (R27). -/
  rounds : BitVec 4
  /-- KEY[0..15], the registers KEY0 to KEY3 (R29). -/
  key : Bytes 16
  /-- DIN[0..7], the registers DIN0 and DIN1 (R30). -/
  din : Bytes 8
  /-- DOUT[0..7], the registers DOUT0 and DOUT1 (R31). -/
  dout : Bytes 8
  /-- EXP[0..255] (R32). -/
  exp : Bytes 256
  /-- LOG[0..255] (R32). -/
  log : Bytes 256
  /-- SK[0..215], the subkey store (R33). -/
  sk : Bytes 216
  /-- K1[0..7] (R34). -/
  k1 : Bytes 8
  /-- K2[0..7] (R34). -/
  k2 : Bytes 8
  /-- Ra[0..8], lane 8 the parity lane (R34). -/
  ra : Bytes 9
  /-- Rb[0..8], lane 8 the parity lane (R34). -/
  rb : Bytes 9
  /-- L[0..7], the working lanes (R35). -/
  lanes : Lanes
  /-- idx, the SK cursor (R35). -/
  idx : BitVec 8
  /-- rc, the round counter (R35). -/
  rc : BitVec 4
  /-- E, the generator register (R35). -/
  eReg : BitVec 9
  /-- gi, the generator counter (R35). -/
  gi : BitVec 9
  /-- PEND: empty, or the accepted command word (R36, R37). -/
  pend : Option Word
  /-- The host's program: the operations it has still to run, the next one first (R89, R250; log 3). -/
  program : List HostOp
  /-- The values of the host's names, by rising name, each at most once (R89; log 3). -/
  vars : List (HostName × Word)
  /-- The turns to come, the next one first; the model's own field (log 1). -/
  schedule : List Turn
  /-- How many free values have been drawn; the model's own field (log 4). -/
  freeCtr : Nat
  deriving DecidableEq, Repr

/-- The reasons a step stops with a fault. No state that a run from reset reaches raises one. -/
inductive Fault where
  /-- Raised by ENC and DEC where they read ROUNDS as R and find 14 or 15, values that 'never occur' (R27; I8: 'fault if
  reached'). SAFE: no such state is reachable (log 6). -/
  | roundsReserved
  /-- Raised by the engine's turn where BUSY = 1 and PEND is empty, which R37 excludes. SAFE: no such state is reachable
  (log 8). -/
  | pendEmptyWhileBusy
  deriving DecidableEq, Repr

/-- The reasons a step is refused. -/
inductive Refusal where
  /-- Raised by `exec` for an instruction without a meaning. SAFE. No arm of this model raises it. -/
  | notModelled (mnemonic : String)
  /-- Raised by the host's turn for an access narrower than 32 bits: 'a model must refuse it' (R53, I6). SAFE (log 9). -/
  | narrowAccess
  /-- Raised by the host's turn for a `WR` whose value is a name that nothing has assigned: such a host program has no
  meaning in R89. SAFE (log 3). -/
  | unboundName
  deriving DecidableEq, Repr

/-- R231: 'Every element is stated; none is unspecified.' All zero, PEND empty. The host's program, its names, the schedule and
the free-value counter are not the engine's: empty, DESIGN CHOICE (logs 1, 3, 4). -/
def State.reset : State where
  busy := false
  tblValid := false
  schedValid := false
  err := .ok
  rounds := 0
  key := Vector.replicate 16 0
  din := Vector.replicate 8 0
  dout := Vector.replicate 8 0
  exp := Vector.replicate 256 0
  log := Vector.replicate 256 0
  sk := Vector.replicate 216 0
  k1 := Vector.replicate 8 0
  k2 := Vector.replicate 8 0
  ra := Vector.replicate 9 0
  rb := Vector.replicate 9 0
  lanes := ⟨0, 0, 0, 0, 0, 0, 0, 0⟩
  idx := 0
  rc := 0
  eReg := 0
  gi := 0
  pend := none
  program := []
  vars := []
  schedule := []
  freeCtr := 0

end Sys2Proof.Machine
end

