-- ==== Sys2Proof/Machine/Ops.lean ====
section
/-! DEFINITION. The operations every command shares: byte arithmetic, array access, loops, word packing, acceptance, completion,
raising an error, clearing, free values, reset. -/

namespace Sys2Proof.Machine

/-- R12: `rotl8(x, n) = ((x << n) OR (x >> (8 - n))) mod 256`, for n in 1..7. -/
def rotl8 (x : Byte) (n : Nat) : Byte := (x <<< n) ||| (x >>> (8 - n))

/-- R13: `T[i]`. An index outside the array never occurs in the rules (R13); the model reads 0 there (log 10). -/
def rd {n : Nat} (t : Bytes n) (i : Nat) : Byte := t[i]?.getD 0

/-- R13: `T[i] <- v`. An index outside the array never occurs in the rules; the model writes nothing there (log 10). -/
def wr {n : Nat} (t : Bytes n) (i : Nat) (v : Byte) : Bytes n := t.setIfInBounds i v

/-- R13: a table lookup; the index of EXP or LOG is always a byte. -/
def lookup (t : Bytes 256) (x : Byte) : Byte := rd t x.toNat

/-- The array of `n` zero bytes. -/
def zeros (n : Nat) : Bytes n := Vector.replicate n 0

/-- R16: `for i in lo..lo+n-1`, in increasing order; `body i` acts on the loop's variables. -/
def forUp {α : Type} (lo : Nat) : Nat → (Nat → α → α) → α → α
  | 0, _, x => x
  | n + 1, body, x => forUp (lo + 1) n body (body lo x)

/-- R56: `pack(T, n) = {T[4n+3], T[4n+2], T[4n+1], T[4n]}`, little-endian. -/
def packWord {n : Nat} (t : Bytes n) (k : Nat) : Word :=
  rd t (4 * k + 3) ++ rd t (4 * k + 2) ++ rd t (4 * k + 1) ++ rd t (4 * k)

/-- R56: write a host word to word `k` of a byte array: byte `4k + b` gets bits 8b+7:8b. -/
def setWord {n : Nat} (t : Bytes n) (k : Nat) (w : Word) : Bytes n :=
  wr (wr (wr (wr t (4 * k) (w.extractLsb' 0 8)) (4 * k + 1) (w.extractLsb' 8 8)) (4 * k + 2) (w.extractLsb' 16 8))
    (4 * k + 3) (w.extractLsb' 24 8)

/-- R57: 'Let byte lanes a..h = input[0..7]'. -/
def Lanes.ofBlock (t : Bytes 8) : Lanes :=
  ⟨rd t 0, rd t 1, rd t 2, rd t 3, rd t 4, rd t 5, rd t 6, rd t 7⟩

/-- R57: lanes a to h as a block, a first. -/
def Lanes.toBlock (l : Lanes) : Bytes 8 := #v[l.a, l.b, l.c, l.d, l.e, l.f, l.g, l.h]

/-- R241: acceptance of the command word `v`: PEND <- v, ERR <- 0, BUSY <- 1. -/
def State.accept (v : Word) (s : State) : State := { s with pend := some v, err := .ok, busy := true }

/-- R242: the end of every completion: the result code goes to ERR, PEND becomes empty, BUSY <- 0. -/
def State.finish (code : ErrCode) (s : State) : State := { s with err := code, pend := none, busy := false }

/-- R15: `complete` ends the command with ERR = 0. -/
def State.complete (s : State) : Host.Outcome State Fault Refusal := .next (s.finish .ok)

/-- R15, R203: `raise Err(code)` ends the command at once; STATUS.ERR gets `code`, and the command completes. The state given is
the one after the effects its failure rule lists. This engine's only form of exception: there is no trap (R200, R207). -/
def State.raiseErr (code : ErrCode) (s : State) : Host.Outcome State Fault Refusal := .next (s.finish code)

/-- R127: the clearing of sensitive state on every exit path of KEYEXP. -/
def State.clearKeys (s : State) : State :=
  { s with k1 := zeros 8, k2 := zeros 8, ra := zeros 9, rb := zeros 9, key := zeros 16 }

/-- R129: the schedule a failed KEYEXP leaves: none. -/
def State.dropSchedule (s : State) : State := { s with sk := zeros 216, rounds := 0, schedValid := false }

/-- R35, I14: what ENC and DEC leave in L, idx and rc is open: ten free values (log 5). -/
def State.leaveDatapath (s : State) : State :=
  { s with
    lanes := ⟨Config.freeBits 8 s.freeCtr, Config.freeBits 8 (s.freeCtr + 1), Config.freeBits 8 (s.freeCtr + 2),
      Config.freeBits 8 (s.freeCtr + 3), Config.freeBits 8 (s.freeCtr + 4), Config.freeBits 8 (s.freeCtr + 5),
      Config.freeBits 8 (s.freeCtr + 6), Config.freeBits 8 (s.freeCtr + 7)⟩
    idx := Config.freeBits 8 (s.freeCtr + 8)
    rc := Config.freeBits 4 (s.freeCtr + 9)
    freeCtr := s.freeCtr + 10 }

/-- R35, I14: what TBLGEN leaves in E and gi is open: two free values (log 5). -/
def State.leaveGenerator (s : State) : State :=
  { s with
    eReg := Config.freeBits 9 s.freeCtr
    gi := Config.freeBits 9 (s.freeCtr + 1)
    freeCtr := s.freeCtr + 2 }

/-- R54: one UNSPECIFIED word, 'any 32-bit value', and the state that has drawn it (log 4). -/
def State.drawWord (s : State) : Word × State := (Config.freeBits 32 s.freeCtr, { s with freeCtr := s.freeCtr + 1 })

/-- R230: the reset input sets every state element of the engine to the value of R231 and abandons the command in flight. The
host's program and names, the schedule and the free-value counter are no elements of the engine (log 11). -/
def State.engineReset (s : State) : State :=
  { State.reset with program := s.program, vars := s.vars, schedule := s.schedule, freeCtr := s.freeCtr }

end Sys2Proof.Machine
end

