-- ==== Sys2Proof/Machine/Encrypt.lean ====
section
/-! DEFINITION. The encrypt datapath: ENC (R150 to R162). -/

namespace Sys2Proof.Machine

/-- R151: `PHT(x, y)`: y' = x + y, x' = x + y' = 2x + y. -/
def pht (x y : Byte) : Byte × Byte :=
  let y' := x + y
  (x + y', y')

/-- R152: the nonlinear mixing layer with the subkeys at `idx`. -/
def mix (exp log : Bytes 256) (sk : Bytes 216) (idx : Nat) (l : Lanes) : Lanes :=
  { a := lookup exp (l.a ^^^ rd sk (idx + 0)) + rd sk (idx + 8)
    b := lookup log (l.b + rd sk (idx + 1)) ^^^ rd sk (idx + 9)
    c := lookup log (l.c + rd sk (idx + 2)) ^^^ rd sk (idx + 10)
    d := lookup exp (l.d ^^^ rd sk (idx + 3)) + rd sk (idx + 11)
    e := lookup exp (l.e ^^^ rd sk (idx + 4)) + rd sk (idx + 12)
    f := lookup log (l.f + rd sk (idx + 5)) ^^^ rd sk (idx + 13)
    g := lookup log (l.g + rd sk (idx + 6)) ^^^ rd sk (idx + 14)
    h := lookup exp (l.h ^^^ rd sk (idx + 7)) + rd sk (idx + 15) }

/-- R153: layer 1 on the pairs (a,b), (c,d), (e,f), (g,h). -/
def phtLayer1 (l : Lanes) : Lanes :=
  { a := (pht l.a l.b).1, b := (pht l.a l.b).2, c := (pht l.c l.d).1, d := (pht l.c l.d).2
    e := (pht l.e l.f).1, f := (pht l.e l.f).2, g := (pht l.g l.h).1, h := (pht l.g l.h).2 }

/-- R153: layer 2 on the pairs (a,c), (e,g), (b,d), (f,h). -/
def phtLayer2 (l : Lanes) : Lanes :=
  { a := (pht l.a l.c).1, c := (pht l.a l.c).2, e := (pht l.e l.g).1, g := (pht l.e l.g).2
    b := (pht l.b l.d).1, d := (pht l.b l.d).2, f := (pht l.f l.h).1, h := (pht l.f l.h).2 }

/-- R153: layer 3 on the pairs (a,e), (b,f), (c,g), (d,h). -/
def phtLayer3 (l : Lanes) : Lanes :=
  { a := (pht l.a l.e).1, e := (pht l.a l.e).2, b := (pht l.b l.f).1, f := (pht l.b l.f).2
    c := (pht l.c l.g).1, g := (pht l.c l.g).2, d := (pht l.d l.h).1, h := (pht l.d l.h).2 }

/-- R153: the PHT network, three layers. -/
def phtNetwork (l : Lanes) : Lanes := phtLayer3 (phtLayer2 (phtLayer1 l))

/-- R154: the lane permutation: new b = old e, new e = old c, new c = old b; new d = old f, new f = old g, new g = old d. -/
def permute (l : Lanes) : Lanes :=
  { a := l.a, b := l.e, e := l.c, c := l.b, d := l.f, f := l.g, g := l.d, h := l.h }

/-- The variables of a round loop (R155, R183): the lanes and the 8-bit cursor. -/
structure Datapath where
  l : Lanes
  idx : BitVec 8
  deriving DecidableEq, Repr

/-- R155: one round: R152, R153, R154, then idx <- idx + 16. -/
def encRound (exp log : Bytes 256) (sk : Bytes 216) (p : Datapath) : Datapath :=
  { l := permute (phtNetwork (mix exp log sk p.idx.toNat p.l)), idx := p.idx + 16 }

/-- R157: `r` rounds. -/
def encRounds (exp log : Bytes 256) (sk : Bytes 216) (r : Nat) (p : Datapath) : Datapath :=
  forUp 0 r (fun _ q => encRound exp log sk q) p

/-- R156: the output transform; `out[0..7]` in lanes a to h. -/
def outputTransform (sk : Bytes 216) (p : Datapath) : Lanes :=
  { a := p.l.a ^^^ rd sk (p.idx.toNat + 0)
    b := p.l.b + rd sk (p.idx.toNat + 1)
    c := p.l.c + rd sk (p.idx.toNat + 2)
    d := p.l.d ^^^ rd sk (p.idx.toNat + 3)
    e := p.l.e ^^^ rd sk (p.idx.toNat + 4)
    f := p.l.f + rd sk (p.idx.toNat + 5)
    g := p.l.g + rd sk (p.idx.toNat + 6)
    h := p.l.h ^^^ rd sk (p.idx.toNat + 7) }

/-- R157: the encryption of a block with a schedule of `r` rounds. -/
def encryptBlock (exp log : Bytes 256) (sk : Bytes 216) (r : Nat) (input : Bytes 8) : Bytes 8 :=
  (outputTransform sk (encRounds exp log sk r ⟨Lanes.ofBlock input, 0⟩)).toBlock

/-- ENC (R157, R158, R159). ROUNDS 14 and 15 never occur (R27): reading one as R is a fault (I8, log 6). -/
def execEnc (s : State) : Host.Outcome State Fault Refusal :=
  if s.schedValid = false then s.raiseErr .noSchedule
  else if Config.maxRounds < s.rounds.toNat then .fault .roundsReserved
  else ({ s.leaveDatapath with dout := encryptBlock s.exp s.log s.sk s.rounds.toNat s.din }).complete

end Sys2Proof.Machine
end

