-- ==== Sys2Proof/Machine/Decrypt.lean ====
section
/-! DEFINITION. The decrypt datapath: DEC (R180 to R191). -/

namespace Sys2Proof.Machine

/-- R181: `invPHT(x, y)`: x' = x - y, y' = y - x'. -/
def invPht (x y : Byte) : Byte × Byte :=
  let x' := x - y
  (x', y - x')

/-- R182: undo the output transform, reading SK from `idx` down, then idx <- idx - 8. -/
def undoOutput (sk : Bytes 216) (idx : BitVec 8) (input : Lanes) : Datapath :=
  { l :=
      { h := input.h ^^^ rd sk (idx.toNat - 0)
        g := input.g - rd sk (idx.toNat - 1)
        f := input.f - rd sk (idx.toNat - 2)
        e := input.e ^^^ rd sk (idx.toNat - 3)
        d := input.d ^^^ rd sk (idx.toNat - 4)
        c := input.c - rd sk (idx.toNat - 5)
        b := input.b - rd sk (idx.toNat - 6)
        a := input.a ^^^ rd sk (idx.toNat - 7) }
    idx := idx - 8 }

/-- R184: undo the lane permutation: new e = old b, new b = old c, new c = old e; new f = old d, new d = old g, new g = old f. -/
def unpermute (l : Lanes) : Lanes :=
  { a := l.a, e := l.b, b := l.c, c := l.e, f := l.d, d := l.g, g := l.f, h := l.h }

/-- R185: undo layer 3, on the pairs (a,e), (b,f), (c,g), (d,h). -/
def undoLayer3 (l : Lanes) : Lanes :=
  { a := (invPht l.a l.e).1, e := (invPht l.a l.e).2, b := (invPht l.b l.f).1, f := (invPht l.b l.f).2
    c := (invPht l.c l.g).1, g := (invPht l.c l.g).2, d := (invPht l.d l.h).1, h := (invPht l.d l.h).2 }

/-- R185: undo layer 2, on the pairs (a,c), (e,g), (b,d), (f,h). -/
def undoLayer2 (l : Lanes) : Lanes :=
  { a := (invPht l.a l.c).1, c := (invPht l.a l.c).2, e := (invPht l.e l.g).1, g := (invPht l.e l.g).2
    b := (invPht l.b l.d).1, d := (invPht l.b l.d).2, f := (invPht l.f l.h).1, h := (invPht l.f l.h).2 }

/-- R185: undo layer 1, on the pairs (a,b), (c,d), (e,f), (g,h). -/
def undoLayer1 (l : Lanes) : Lanes :=
  { a := (invPht l.a l.b).1, b := (invPht l.a l.b).2, c := (invPht l.c l.d).1, d := (invPht l.c l.d).2
    e := (invPht l.e l.f).1, f := (invPht l.e l.f).2, g := (invPht l.g l.h).1, h := (invPht l.g l.h).2 }

/-- R185: undo the PHT network, in reverse layer order. -/
def undoNetwork (l : Lanes) : Lanes := undoLayer1 (undoLayer2 (undoLayer3 l))

/-- R186: undo the nonlinear mixing; `idx` is the index of the last byte of the round's 16 subkeys. -/
def unmix (exp log : Bytes 256) (sk : Bytes 216) (idx : Nat) (l : Lanes) : Lanes :=
  { h := lookup log (l.h - rd sk (idx - 0)) ^^^ rd sk (idx - 8)
    g := lookup exp (l.g ^^^ rd sk (idx - 1)) - rd sk (idx - 9)
    f := lookup exp (l.f ^^^ rd sk (idx - 2)) - rd sk (idx - 10)
    e := lookup log (l.e - rd sk (idx - 3)) ^^^ rd sk (idx - 11)
    d := lookup log (l.d - rd sk (idx - 4)) ^^^ rd sk (idx - 12)
    c := lookup exp (l.c ^^^ rd sk (idx - 5)) - rd sk (idx - 13)
    b := lookup exp (l.b ^^^ rd sk (idx - 6)) - rd sk (idx - 14)
    a := lookup log (l.a - rd sk (idx - 7)) ^^^ rd sk (idx - 15) }

/-- R183: one iteration: R184, R185, R186, then idx <- idx - 16, in 8 bits. -/
def decRound (exp log : Bytes 256) (sk : Bytes 216) (p : Datapath) : Datapath :=
  { l := unmix exp log sk p.idx.toNat (undoNetwork (unpermute p.l)), idx := p.idx - 16 }

/-- R183: `r` iterations. -/
def decRounds (exp log : Bytes 256) (sk : Bytes 216) (r : Nat) (p : Datapath) : Datapath :=
  forUp 0 r (fun _ q => decRound exp log sk q) p

/-- R183: the decryption of a block with a schedule of `r` rounds; the cursor starts at SK_LEN(R) - 1 (R182). -/
def decryptBlock (exp log : Bytes 256) (sk : Bytes 216) (r : Nat) (input : Bytes 8) : Bytes 8 :=
  (decRounds exp log sk r (undoOutput sk (BitVec.ofNat 8 (Config.skLen r - 1)) (Lanes.ofBlock input))).l.toBlock

/-- DEC (R183, R188, R189). ROUNDS 14 and 15 never occur (R27): reading one as R is a fault (I8, log 6). -/
def execDec (s : State) : Host.Outcome State Fault Refusal :=
  if s.schedValid = false then s.raiseErr .noSchedule
  else if Config.maxRounds < s.rounds.toNat then .fault .roundsReserved
  else ({ s.leaveDatapath with dout := decryptBlock s.exp s.log s.sk s.rounds.toNat s.din }).complete

end Sys2Proof.Machine
end

