-- ==== Sys2Proof/Machine/Operands.lean ====
section
/-! DEFINITION. The operands of KEYEXP: the checks and the round count (R121, R83, R84), and the key blocks (R122). -/

namespace Sys2Proof.Machine

/-- R121: the round count KEYEXP resolves, or INVALID_ROUND_COUNT. -/
def resolveRounds (klen : Nat) : Option Nat → Except ErrCode Nat
  | some rreq => if rreq = 0 then .error .invalidRoundCount else .ok (min rreq Config.maxRounds)
  | none => .ok (if klen ≤ 8 then Config.defaultRoundsShort else Config.defaultRoundsLong)

/-- R121: the checks of KEYEXP in their order: TBL_VALID first, then the round count (R204). -/
def keyexpChecks (tblValid : Bool) (klen : Nat) (rounds : Option Nat) : Except ErrCode Nat :=
  if tblValid = false then .error .noTable else resolveRounds klen rounds

/-- R122: K1, the first key block: key bytes first, trailing bytes zero. -/
def keyBlock1 (key : Bytes 16) (klen : Nat) : Bytes 8 :=
  Vector.ofFn fun i : Fin 8 => if klen ≤ 8 then (if i.val < klen then rd key i else 0) else rd key i

/-- R122: K2, the second key block: K1 again for a key of at most 8 bytes, else the next key bytes and zeros. -/
def keyBlock2 (key : Bytes 16) (klen : Nat) : Bytes 8 :=
  if klen ≤ 8 then keyBlock1 key klen
  else Vector.ofFn fun i : Fin 8 => if 8 + i.val < min klen Config.keyMaxBytes then rd key (8 + i) else 0

end Sys2Proof.Machine
end

