-- ==== Sys2Proof/Machine/KeySchedule.lean ====
section
/-! DEFINITION. The key scheduler: KEYEXP (R120 to R136). -/

namespace Sys2Proof.Machine

/-- The variables of KEYEXP's loops (R123 to R126): the accumulators and the subkey store. -/
structure KeyWork where
  ra : Bytes 9
  rb : Bytes 9
  sk : Bytes 216
  deriving DecidableEq, Repr

/-- R123: Step 2 for byte `i`. -/
def initLane (k1 k2 : Bytes 8) (i : Nat) (w : KeyWork) : KeyWork :=
  let t := rotl8 (rd k1 i) Config.rotInit
  { ra := wr (wr w.ra i t) 8 (rd w.ra 8 ^^^ t)
    rb := wr (wr w.rb i (rd k2 i)) 8 (rd w.rb 8 ^^^ rd k2 i)
    sk := wr w.sk i (rd k2 i) }

/-- R123: Step 2, the accumulators from parity lanes 0 and the first output group, into the store `sk`. -/
def initWork (k1 k2 : Bytes 8) (sk : Bytes 216) : KeyWork := forUp 0 8 (initLane k1 k2) ⟨zeros 9, zeros 9, sk⟩

/-- R124: rotate byte `j` of both accumulators left by 6. -/
def rotateLane (j : Nat) (w : KeyWork) : KeyWork :=
  { w with ra := wr w.ra j (rotl8 (rd w.ra j) Config.rotRound), rb := wr w.rb j (rotl8 (rd w.rb j) Config.rotRound) }

/-- R124: Step 3a, all 9 lanes. -/
def rotateAll (w : KeyWork) : KeyWork := forUp 0 9 rotateLane w

/-- R125: the round constant `EXP[EXP[n mod 256]]`. -/
def roundConst (exp : Bytes 256) (n : Nat) : Byte := lookup exp (lookup exp (BitVec.ofNat 8 (n % 256)))

/-- R125: `base`, where round `r` writes its 16 bytes. -/
def roundBase (r : Nat) : Nat := 8 + 16 * (r - 1)

/-- R125: byte `j` of the first half of round `r`. -/
def emitRa (exp : Bytes 256) (r j : Nat) (w : KeyWork) : KeyWork :=
  { w with sk := wr w.sk (roundBase r + j) (rd w.ra ((j + 2 * r - 1) % 9) + roundConst exp (18 * r + j + 1)) }

/-- R125: byte `j` of the second half of round `r`. -/
def emitRb (exp : Bytes 256) (r j : Nat) (w : KeyWork) : KeyWork :=
  { w with sk := wr w.sk (roundBase r + 8 + j) (rd w.rb ((j + 2 * r) % 9) + roundConst exp (18 * r + j + 10)) }

/-- R124, R125: round `r`: rotate, then emit 16 bytes. -/
def keyRound (exp : Bytes 256) (r : Nat) (w : KeyWork) : KeyWork :=
  forUp 0 8 (emitRb exp r) (forUp 0 8 (emitRa exp r) (rotateAll w))

/-- R126: clear the store from SK_LEN(R) on. -/
def clearTail (r : Nat) (sk : Bytes 216) : Bytes 216 :=
  forUp (Config.skLen r) (Config.skMax - Config.skLen r) (fun i t => wr t i 0) sk

/-- R130: Steps 1 to 3 and the tail clearing: the subkey store after expanding `key` with `r` rounds, from the store `sk`. -/
def expandKey (exp : Bytes 256) (key : Bytes 16) (klen r : Nat) (sk : Bytes 216) : Bytes 216 :=
  clearTail r (forUp 1 r (keyRound exp) (initWork (keyBlock1 key klen) (keyBlock2 key klen) sk)).sk

/-- KEYEXP (R130): the checks (R121), then on an error R129, else the schedule, the clearing (R127) and R128. -/
def execKeyexp (klen : Nat) (rounds : Option Nat) (s : State) : Host.Outcome State Fault Refusal :=
  match keyexpChecks s.tblValid klen rounds with
  | .error code => (s.dropSchedule.clearKeys).raiseErr code
  | .ok r =>
    ({ s.clearKeys with
        sk := expandKey s.exp s.key klen r s.sk
        rounds := BitVec.ofNat 4 r
        schedValid := true }).complete

end Sys2Proof.Machine
end

