-- ==== Sys2Proof/Machine/TableGen.lean ====
section
/-! DEFINITION. The substitution table generator: TBLGEN (R100 to R107). -/

namespace Sys2Proof.Machine

/-- The variables of TBLGEN's loop (R101): E and the two tables. -/
structure TableWork where
  e : Nat
  exp : Bytes 256
  log : Bytes 256
  deriving DecidableEq, Repr

/-- R101: one iteration. E = 256 gives the byte 0. -/
def tableIter (gi : Nat) (w : TableWork) : TableWork :=
  let t : Byte := BitVec.ofNat 8 (w.e % 256)
  { e := (Config.gen * w.e) % Config.modulus
    exp := wr w.exp gi t
    log := wr w.log t.toNat (BitVec.ofNat 8 gi) }

/-- R101: the loop over gi in 0..255, from E = 1. -/
def buildTables (exp log : Bytes 256) : TableWork := forUp 0 256 tableIter ⟨1, exp, log⟩

/-- TBLGEN (R101, R103): writes EXP, LOG and TBL_VALID, and completes; it has no failure (R105). -/
def execTblgen (s : State) : Host.Outcome State Fault Refusal :=
  let w := buildTables s.exp s.log
  ({ s.leaveGenerator with exp := w.exp, log := w.log, tblValid := true }).complete

end Sys2Proof.Machine
end

