-- ==== Sys2Proof/Machine/Flags.lean ====
section
/-! DEFINITION. The STATUS register: its codes and its layout (R22, R201). -/

namespace Sys2Proof.Machine

/-- R201: the 3-bit code of a result. -/
def ErrCode.code : ErrCode → BitVec 3
  | .ok => 0
  | .illegalCmd => 1
  | .noTable => 2
  | .invalidRoundCount => 3
  | .noSchedule => 4

/-- One bit of STATUS. -/
def flagBit (b : Bool) : BitVec 1 := BitVec.ofBool b

/-- R22: STATUS as the host reads it: BUSY bit 0, TBL_VALID bit 1, SCHED_VALID bit 2, ERR bits 6:4, ROUNDS bits 11:8; bits 3, 7
and 31:12 are hardwired 0. -/
def statusWord (s : State) : Word :=
  (0#20 ++ s.rounds ++ 0#1 ++ s.err.code ++ 0#1 ++ flagBit s.schedValid ++ flagBit s.tblValid ++ flagBit s.busy : BitVec 32)

end Sys2Proof.Machine
end

