-- ==== Sys2Proof/Machine/HostPort.lean ====
section
/-! DEFINITION. The host register space: its map (R51), HostRead (R54), HostWrite (R55), and the bus address (R210). -/

namespace Sys2Proof.Machine

/-- What an offset names (R51); the number is the word's index within its register group or window. -/
inductive Region where
  | cmd
  | status
  | key (n : Nat)
  | din (n : Nat)
  | dout (n : Nat)
  | expWin (n : Nat)
  | logWin (n : Nat)
  | skWin (n : Nat)
  | reserved
  deriving DecidableEq, Repr

/-- R53, R54: `off = 4·addr[11:2]`; bits 1:0 are ignored. -/
def wordOffset (addr : Addr) : Nat := 4 * (addr.extractLsb' 2 10).toNat

/-- R51: the register map, over offsets that are multiples of 4. -/
def regionAt (off : Nat) : Region :=
  if off = 0x000 then .cmd
  else if off = 0x004 then .status
  else if 0x010 ≤ off ∧ off ≤ 0x01C then .key ((off - 0x010) / 4)
  else if 0x020 ≤ off ∧ off ≤ 0x024 then .din ((off - 0x020) / 4)
  else if 0x028 ≤ off ∧ off ≤ 0x02C then .dout ((off - 0x028) / 4)
  else if 0x100 ≤ off ∧ off ≤ 0x1FC then .expWin ((off - 0x100) / 4)
  else if 0x200 ≤ off ∧ off ≤ 0x2FC then .logWin ((off - 0x200) / 4)
  else if 0x300 ≤ off ∧ off ≤ 0x3D4 then .skWin ((off - 0x300) / 4)
  else .reserved

/-- R53, R51: what a host address names. -/
def region (addr : Addr) : Region := regionAt (wordOffset addr)

/-- R54: a read that is UNSPECIFIED while BUSY = 1, and `w` otherwise. -/
def readWhenIdle (w : Word) (s : State) : Word × State := if s.busy then s.drawWord else (w, s)

/-- R54: `HostRead(addr)`: the value, and the state after (in which at most a free value has been drawn). -/
def hostRead (addr : Addr) (s : State) : Word × State :=
  match region addr with
  | .cmd => (0, s)
  | .status => (statusWord s, s)
  | .key _ => (0, s)
  | .din n => (packWord s.din n, s)
  | .dout n => readWhenIdle (packWord s.dout n) s
  | .expWin n => readWhenIdle (packWord s.exp n) s
  | .logWin n => readWhenIdle (packWord s.log n) s
  | .skWin n => readWhenIdle (packWord s.sk n) s
  | .reserved => (0, s)

/-- R55: `HostWrite(addr, v)`. While BUSY = 1 every write is dropped (R243). -/
def hostWrite (addr : Addr) (v : Word) (s : State) : State :=
  if s.busy then s
  else
    match region addr with
    | .cmd => s.accept v
    | .status => s
    | .key n => { s with key := setWord s.key n v }
    | .din n => { s with din := setWord s.din n v }
    | .dout _ => s
    | .expWin _ => s
    | .logWin _ => s
    | .skWin _ => s
    | .reserved => s

/-- R210: 'An offset in this spec is added to ENGINE_BASE to give the host bus address.' -/
def busAddress (off : Addr) : Nat := Config.engineBase + off.toNat

end Sys2Proof.Machine
end

