-- ==== Sys2Proof/Machine/HostProgram.lean ====
section
/-! DEFINITION. The host's turn, and the host program's operations and pseudo-instructions (R89). -/

namespace Sys2Proof.Machine

/-- The value of a host name, if one was assigned. -/
def lookupName (x : HostName) : List (HostName × Word) → Option Word
  | [] => none
  | (y, w) :: rest => if x = y then some w else lookupName x rest

/-- R89: `name <- value`; the list stays by rising name, each name at most once. -/
def assignName (x : HostName) (w : Word) : List (HostName × Word) → List (HostName × Word)
  | [] => [(x, w)]
  | (y, u) :: rest =>
    if x < y then (x, w) :: (y, u) :: rest
    else if x = y then (x, w) :: rest
    else (y, u) :: assignName x w rest

/-- The word a `WR` writes. -/
def evalHostVal (vars : List (HostName × Word)) : HostVal → Option Word
  | .lit w => some w
  | .var x => lookupName x vars

/-- R89, R54, R55: one host operation; `rest` is the program after it. -/
def runHostOp (op : HostOp) (rest : List HostOp) (s : State) : Host.Outcome State Fault Refusal :=
  match op with
  | .wr off v =>
    match evalHostVal s.vars v with
    | some w => .next { hostWrite off w s with program := rest }
    | none => .refused .unboundName
  | .rd off x =>
    let r := hostRead off s
    .next { r.2 with vars := assignName x r.1 s.vars, program := rest }
  | .poll x =>
    let r := hostRead 0x004 s
    .next { r.2 with
      vars := assignName x r.1 s.vars
      program := if r.1.getLsbD 0 then .poll x :: rest else rest }
  | .narrow _ _ => .refused .narrowAccess

/-- The host's turn: its next operation; a host with no operation left does nothing (log 2). -/
def hostTurn (s : State) : Host.Outcome State Fault Refusal :=
  match s.program with
  | [] => .next s
  | op :: rest => runHostOp op rest s

/-- R89: the operations and pseudo-instructions of a host program. -/
inductive HostInstr where
  /-- `WR off, v` -/
  | wr (off : Addr) (v : HostVal)
  /-- `RD off -> name` -/
  | rd (off : Addr) (x : HostName)
  /-- `POLL`, reading STATUS into the name `s`. -/
  | poll (s : HostName)
  /-- `ISSUE cmd` -/
  | issue (cmd : Instr) (s : HostName)
  /-- `LDKEY k0, ..., k15`, or fewer bytes. -/
  | ldkey (bytes : List Byte)
  /-- `LDBLK b0, ..., b7` -/
  | ldblk (b0 b1 b2 b3 b4 b5 b6 b7 : Byte)
  /-- `LDBLK name`, for a block read with `RDBLK` into the names `w0` and `w1`. -/
  | ldblkName (w0 w1 : HostName)
  /-- `RDBLK -> name`; the block's bytes are those of `w0`, then `w1`, low byte first (`blockOfNames`). -/
  | rdblk (w0 w1 : HostName)
  deriving DecidableEq, Repr

/-- R11: `{b3, b2, b1, b0}`, `b0` in bits 7:0. -/
def braceWord (b3 b2 b1 b0 : Byte) : Word := b3 ++ b2 ++ b1 ++ b0

/-- R89: the exact expansion of each pseudo-instruction. None where the assembler refuses: an operand of `cmd` that cannot be
encoded (R88), or more than 16 key bytes. 'A LDKEY with fewer than 16 bytes fills the missing bytes with 0.' -/
def expandHost : HostInstr → Option (List HostOp)
  | .wr off v => some [.wr off v]
  | .rd off x => some [.rd off x]
  | .poll s => some [.poll s]
  | .issue cmd s =>
    match assemble cmd with
    | some w => some [.wr 0x000 (.lit w), .poll s]
    | none => none
  | .ldkey ks =>
    if 16 < ks.length then none
    else
      let k := fun i => ks.getD i 0
      some
        [ .wr 0x010 (.lit (braceWord (k 3) (k 2) (k 1) (k 0))),
          .wr 0x014 (.lit (braceWord (k 7) (k 6) (k 5) (k 4))),
          .wr 0x018 (.lit (braceWord (k 11) (k 10) (k 9) (k 8))),
          .wr 0x01C (.lit (braceWord (k 15) (k 14) (k 13) (k 12))) ]
  | .ldblk b0 b1 b2 b3 b4 b5 b6 b7 =>
    some [.wr 0x020 (.lit (braceWord b3 b2 b1 b0)), .wr 0x024 (.lit (braceWord b7 b6 b5 b4))]
  | .ldblkName w0 w1 => some [.wr 0x020 (.var w0), .wr 0x024 (.var w1)]
  | .rdblk w0 w1 => some [.rd 0x028 w0, .rd 0x02C w1]

/-- R89: the operations of a whole host program, or none where one of its lines is refused. -/
def expandProgram : List HostInstr → Option (List HostOp)
  | [] => some []
  | i :: rest =>
    match expandHost i, expandProgram rest with
    | some ops, some more => some (ops ++ more)
    | _, _ => none

/-- R89, `RDBLK -> name`: 'name <- bytes of w0 then w1, low byte first'. -/
def blockOfNames (vars : List (HostName × Word)) (w0 w1 : HostName) : Option (Bytes 8) :=
  match lookupName w0 vars, lookupName w1 vars with
  | some u, some v => some (setWord (setWord (zeros 8) 0 u) 1 v)
  | _, _ => none

end Sys2Proof.Machine
end

