-- ==== Sys2Proof/Machine/Engine.lean ====
section
/-! DEFINITION. The engine's turn: completion of the command in PEND (R242); whose turn comes next (R250, R230); and placing a
command as if the host had just written it. -/

namespace Sys2Proof.Machine

/-- R242: the whole command in PEND, in one atomic step. An illegal word completes with ERR = ILLEGAL_CMD and changes nothing
else (R86). -/
def completion (w : Word) (s : State) : Host.Outcome State Fault Refusal :=
  match decode w with
  | .ok i => exec i s
  | .error _ => s.raiseErr .illegalCmd

/-- R242, R250: the engine's step, enabled exactly while BUSY = 1; 'The engine has no step while BUSY = 0', so the turn then
changes nothing (log 2). -/
def engineTurn (s : State) : Host.Outcome State Fault Refusal :=
  if s.busy then
    match s.pend with
    | some w => completion w s
    | none => .fault .pendEmptyWhileBusy
  else .next s

/-- R230: the reset input. -/
def resetTurn (s : State) : Host.Outcome State Fault Refusal := .next s.engineReset

/-- Who moves next: the first turn of the schedule; where it is used up, the engine while it is busy (R250: a completion that
stays enabled is eventually taken), and the host otherwise (log 1). -/
def nextTurn (s : State) : Turn :=
  match s.schedule with
  | t :: _ => t
  | [] => if s.busy then .engine else .host

/-- The state as the agent whose turn it is finds it: the turn is used up. -/
def State.takeTurn (s : State) : State := { s with schedule := s.schedule.tail }

/-- One turn of the agent `t`. -/
def turn (t : Turn) (s : State) : Host.Outcome State Fault Refusal :=
  match t with
  | .host => hostTurn s
  | .engine => engineTurn s
  | .reset => resetTurn s

/-- The command word `w` accepted (R241), and the next turn the engine's (log 15). -/
def State.placeCommand (w : Word) (s : State) : State := { s.accept w with schedule := .engine :: s.schedule }

end Sys2Proof.Machine
end

