-- ==== Sys2Proof/Machine/Step.lean ====
section
/-! DEFINITION. One step of the machine: the next turn (R250, R230). -/

namespace Sys2Proof.Machine

/-- One step: the agent whose turn it is moves. -/
def step (s : State) : Host.Outcome State Fault Refusal := turn (nextTurn s) s.takeTurn

/-- The state in which the very next step runs the command whose bits are `w`: the engine fetches nothing (R36, R66), so the
word is accepted into PEND and the engine has the next turn (log 15). -/
def State.withFetchWord (s : State) (nbits w : Nat) : State := s.placeCommand (commandWord nbits w)

end Sys2Proof.Machine
end

