-- ==== Sys2Proof/Machine/Assembler.lean ====
section
/-! DEFINITION. The assembler's text: mnemonics and integer operands (R88). -/

namespace Sys2Proof.Machine

/-- The value of a digit in base `base`, for bases up to 16. -/
def digitValue (base : Nat) (c : Char) : Option Nat :=
  let n := c.toNat
  let v := if 48 ≤ n ∧ n ≤ 57 then some (n - 48)
    else if 97 ≤ n ∧ n ≤ 102 then some (n - 87)
    else if 65 ≤ n ∧ n ≤ 70 then some (n - 55)
    else none
  match v with
  | some d => if d < base then some d else none
  | none => none

/-- The number a row of digits stands for, after `acc`. -/
def digitsValue (base : Nat) : Nat → List Char → Option Nat
  | acc, [] => some acc
  | acc, c :: cs =>
    match digitValue base c with
    | some d => digitsValue base (base * acc + d) cs
    | none => none

/-- R88: 'decimal or 0x hexadecimal integers'. -/
def parseInteger : List Char → Option Nat
  | [] => none
  | '0' :: 'x' :: c :: cs => digitsValue 16 0 (c :: cs)
  | c :: cs => digitsValue 10 0 (c :: cs)

/-- Cut a line at its spaces and commas; a comma is a token of its own (log 12). `cur` is the token being read, reversed. -/
def tokensFrom (cur : List Char) : List Char → List (List Char)
  | [] => if cur = [] then [] else [cur.reverse]
  | c :: cs =>
    if c = ' ' then (if cur = [] then tokensFrom [] cs else cur.reverse :: tokensFrom [] cs)
    else if c = ',' then (if cur = [] then [','] :: tokensFrom [] cs else cur.reverse :: [','] :: tokensFrom [] cs)
    else tokensFrom (c :: cur) cs

/-- R88: the instruction a line of text names: `TBLGEN`, `KEYEXP klen`, `KEYEXP klen, rounds`, `ENC`, `DEC`. -/
def parseTokens : List (List Char) → Option Instr
  | [m] =>
    if m = ['T', 'B', 'L', 'G', 'E', 'N'] then some .tblgen
    else if m = ['E', 'N', 'C'] then some .enc
    else if m = ['D', 'E', 'C'] then some .dec
    else none
  | [m, k] =>
    if m = ['K', 'E', 'Y', 'E', 'X', 'P'] then
      match parseInteger k with
      | some klen => some (.keyexp klen none)
      | none => none
    else none
  | [m, k, sep, r] =>
    if m = ['K', 'E', 'Y', 'E', 'X', 'P'] ∧ sep = [','] then
      match parseInteger k, parseInteger r with
      | some klen, some rounds => some (.keyexp klen (some rounds))
      | _, _ => none
    else none
  | _ => none

/-- R88: from text to the command word; none where the text is no command or an operand is outside [0, 255]. -/
def assembleText (line : List Char) : Option Word :=
  match parseTokens (tokensFrom [] line) with
  | some i => assemble i
  | none => none

end Sys2Proof.Machine
end

