-- ==== Sys2Proof/Machine/Timing.lean ====
section
/-! DEFINITION. Which latency parameter applies to a command (R249). The model runs no clock (log 13). -/

namespace Sys2Proof.Machine

/-- R249: the time from acceptance to completion of the command word `w`, given the valid bits and ROUNDS. 'A failing command,
or an illegal one, takes T_ERR.' -/
def latency (w : Word) (tblValid schedValid : Bool) (rounds : BitVec 4) : Nat :=
  match decode w with
  | .ok .tblgen => Config.tTblgen
  | .ok (.keyexp klen rreq) =>
    match keyexpChecks tblValid klen rreq with
    | .ok r => Config.tKeyexp r
    | .error _ => Config.tErr
  | .ok .enc => if schedValid then Config.tEnc rounds.toNat else Config.tErr
  | .ok .dec => if schedValid then Config.tDec rounds.toNat else Config.tErr
  | .error _ => Config.tErr

end Sys2Proof.Machine
end

