-- ==== Sys2Proof/Safety.lean ====
section
/-! DEFINITION. The invariant of the engine (R24 to R27, R34, R37, R38, R39), safe runs, and what an ended run shows (R251). -/

namespace Sys2Proof.Machine

/-- R101: the EXP table TBLGEN builds. -/
def builtExp : Bytes 256 := (buildTables (zeros 256) (zeros 256)).exp

/-- R101: the LOG table TBLGEN builds. -/
def builtLog : Bytes 256 := (buildTables (zeros 256) (zeros 256)).log

/-- The canonical form of the host's names: rising, each at most once. -/
def NamesRise (vars : List (HostName × Word)) : Prop := (vars.map Prod.fst).Pairwise (· < ·)

/-- What holds of every state a run from reset reaches. R38 asks (a) to (d) while BUSY = 0; a command takes effect in one atomic
step (R242), so they hold while BUSY = 1 too. -/
structure EngineInv (s : State) : Prop where
  /-- R37: PEND 'is empty exactly when STATUS.BUSY = 0'. -/
  pend_iff_busy : s.busy = s.pend.isSome
  /-- R26: 'Acceptance of a command clears it to 0', and only a completion writes it again. -/
  err_clear_while_busy : s.busy = true → s.err = .ok
  /-- R24: when TBL_VALID is 1, 'EXP and LOG hold exactly the tables of' R101. -/
  tables_built : s.tblValid = true → s.exp = builtExp ∧ s.log = builtLog
  /-- R32, R58, R59: before TBLGEN the tables hold their reset contents, 0. -/
  tables_empty : s.tblValid = false → s.exp = zeros 256 ∧ s.log = zeros 256
  /-- R38 (a). -/
  sched_rounds : s.schedValid = true → s.tblValid = true ∧ 1 ≤ s.rounds.toNat ∧ s.rounds.toNat ≤ Config.maxRounds
  /-- R38 (b). -/
  no_sched : s.schedValid = false → s.rounds = 0 ∧ s.sk = zeros 216
  /-- R38 (c): the store holds the schedule of some key. -/
  sched_of_key : s.schedValid = true →
    ∃ key : Bytes 16, ∃ klen : Nat, s.sk = expandKey s.exp key klen s.rounds.toNat (zeros 216)
  /-- R38 (c): 'every SK byte beyond it is 0'. -/
  sched_tail : s.schedValid = true → ∀ i, Config.skLen s.rounds.toNat ≤ i → rd s.sk i = 0
  /-- R38 (d), R34. -/
  scratch_zero : s.k1 = zeros 8 ∧ s.k2 = zeros 8 ∧ s.ra = zeros 9 ∧ s.rb = zeros 9
  /-- The host's names are in canonical form. -/
  names_rise : NamesRise s.vars

/-- A step that does not stop. -/
def Answers (s : State) : Prop := ∃ t, step s = .next t

/-- Whether no operation of a host program is refused: every access is full-width (R53), and a `WR` of a name comes after the name
has a value (R89, log 3). `known` are the names that have one. -/
def programRuns : List HostName → List HostOp → Bool
  | _, [] => true
  | known, .wr _ (.lit _) :: rest => programRuns known rest
  | known, .wr _ (.var x) :: rest => decide (x ∈ known) && programRuns known rest
  | known, .rd _ x :: rest => programRuns (x :: known) rest
  | known, .poll x :: rest => programRuns (x :: known) rest
  | _, .narrow _ _ :: _ => false

/-- `programRuns` of the program a state still has to run, with the names it has assigned. -/
def State.hostRuns (s : State) : Bool := programRuns (s.vars.map Prod.fst) s.program

/-- The state after `k` steps, if none of them stops. -/
def stepsTo : Nat → State → State → Prop
  | 0, s, t => t = s
  | k + 1, s, t => ∃ u, step s = .next u ∧ stepsTo k u t

/-- What of a state the engine's rules give a value: without the host's program and names, the schedule and the free-value counter,
and without L, idx, rc, E and gi, whose values between commands 'are not architectural' (R35). -/
def State.arch (s : State) : State :=
  { s with
    lanes := ⟨0, 0, 0, 0, 0, 0, 0, 0⟩, idx := 0, rc := 0, eReg := 0, gi := 0
    program := [], vars := [], schedule := [], freeCtr := 0 }

/-- R251: 'A run of a host program ends when the host has executed its last operation and BUSY = 0.' -/
def State.runEnded (s : State) : Bool := s.program.isEmpty && !s.busy

/-- R251: the observation of an ended run: 'STATUS, DIN, DOUT, and the EXP, LOG and SK windows as the host can read them'. -/
structure Observation where
  status : Word
  din : List Word
  dout : List Word
  expWindow : List Word
  logWindow : List Word
  skWindow : List Word
  deriving DecidableEq, Repr

/-- R251: the words the host reads at consecutive offsets from `base`. -/
def readWords (base n : Nat) (s : State) : List Word :=
  (List.range n).map fun k => (hostRead (BitVec.ofNat 12 (base + 4 * k)) s).1

/-- R251: the observation of a state. -/
def observe (s : State) : Observation where
  status := (hostRead 0x004 s).1
  din := readWords 0x020 2 s
  dout := readWords 0x028 2 s
  expWindow := readWords 0x100 64 s
  logWindow := readWords 0x200 64 s
  skWindow := readWords 0x300 54 s

end Sys2Proof.Machine
end

