-- ==== Sys2Proof/Certificates/Slice0/Obligations.lean ====
section
/-! DEFINITION. The statements for the provers. Each cites the rule of spec/ it formalises. -/

namespace Sys2Proof.Spec

open Sys2Proof.Machine

/-- R54, R55: `off = 4·addr[11:2]`, by arithmetic. -/
def offsetOf (addr : Addr) : Nat := 4 * (addr.toNat / 4)

/-- R51, R52: the reserved offsets. -/
def reservedOffset (off : Nat) : Prop := off = 0x008 ∨ off = 0x00C ∨ (0x030 ≤ off ∧ off ≤ 0x0FC) ∨ 0x3D8 ≤ off

/-- R56: `{T[4n+3], T[4n+2], T[4n+1], T[4n]}` as a number. -/
def littleEndian {m : Nat} (t : Bytes m) (n : Nat) : Nat :=
  (rd t (4 * n)).toNat + 2 ^ 8 * (rd t (4 * n + 1)).toNat + 2 ^ 16 * (rd t (4 * n + 2)).toNat
    + 2 ^ 24 * (rd t (4 * n + 3)).toNat

/-- R54: the offsets whose reads are UNSPECIFIED while BUSY = 1: DOUT and the three windows. -/
def unspecifiedWhileBusy (off : Nat) : Prop :=
  off = 0x028 ∨ off = 0x02C ∨ (0x100 ≤ off ∧ off ≤ 0x1FC) ∨ (0x200 ≤ off ∧ off ≤ 0x2FC) ∨ (0x300 ≤ off ∧ off ≤ 0x3D4)

/-- The words of a byte array from word 0 on, as numbers (R56). -/
def arrayWords {m : Nat} (t : Bytes m) (n : Nat) : List Nat := (List.range n).map (littleEndian t)

/-- R82: the OP field of a word, as a number. -/
def op (w : Word) : Nat := w.toNat % 16

/-- R82, R86: the illegal opcodes. -/
def illegalOp (w : Word) : Prop := op w = 0 ∨ 5 ≤ op w

/-- R122: byte `i` of K1. -/
def k1 (key : Bytes 16) (klen i : Nat) : Byte := if i < klen then rd key i else 0

/-- R122: byte `i` of K2. -/
def k2 (key : Bytes 16) (klen i : Nat) : Byte :=
  if klen ≤ 8 then k1 key klen i else if 8 + i < min klen 16 then rd key (8 + i) else 0

/-- R123: Ra after Step 2; lane 8 is the XOR of the others. -/
def ra0 (key : Bytes 16) (klen : Nat) : Nat → Byte
  | 8 => (List.range 8).foldl (fun x i => x ^^^ (k1 key klen i).rotateLeft 5) 0
  | i => (k1 key klen i).rotateLeft 5

/-- R123: Rb after Step 2; lane 8 is the XOR of the others. -/
def rb0 (key : Bytes 16) (klen : Nat) : Nat → Byte
  | 8 => (List.range 8).foldl (fun x i => x ^^^ k2 key klen i) 0
  | i => k2 key klen i

/-- R125: the round constant `EXP[EXP[n]]`. -/
def constant (exp : Bytes 256) (n : Nat) : Byte := rd exp (rd exp n).toNat

/-- R152 to R156, by round number: the lanes after rounds 0 to k-1; round k reads SK[16k .. 16k+15] (R157). -/
def encLanes (exp log : Bytes 256) (sk : Bytes 216) : Nat → Lanes → Lanes
  | 0, l => l
  | k + 1, l => permute (phtNetwork (mix exp log sk (16 * k) (encLanes exp log sk k l)))

end Sys2Proof.Spec

open Sys2Proof Sys2Proof.Machine Sys2Proof.Spec

/-! ## Encoding -/

/-- R88, R81: no operand bit of an encoding is dropped. -/
def Obligations.DecodeInvertsEncode : Prop := ∀ i : Instr, i.wellFormed = true → decode (encode i) = .ok i

/-- R88: the assembler's words, and its refusal of an operand outside [0, 255]. -/
def Obligations.AssemblerWords : Prop :=
  assemble .tblgen = some 0x00000001 ∧ assemble .enc = some 0x00000003 ∧ assemble .dec = some 0x00000004 ∧
  (∀ klen : Nat, assemble (.keyexp klen none) =
    if klen ≤ 255 then some (BitVec.ofNat 32 (klen * 2 ^ 24 + 2)) else none) ∧
  (∀ klen rounds : Nat, assemble (.keyexp klen (some rounds)) =
    if klen ≤ 255 ∧ rounds ≤ 255 then some (BitVec.ofNat 32 (klen * 2 ^ 24 + rounds * 2 ^ 16 + 0x102)) else none)

/-- R82: the OP field selects the command. -/
def Obligations.OpcodeSelectsCommand : Prop :=
  ∀ w : Word,
    (op w = 1 → decode w = .ok .tblgen) ∧
    (op w = 2 → ∃ klen rounds, decode w = .ok (.keyexp klen rounds)) ∧
    (op w = 3 → decode w = .ok .enc) ∧
    (op w = 4 → decode w = .ok .dec) ∧
    (illegalOp w → ∃ e, decode w = .error e)

/-- R81: where KEYEXP's fields stand; the other commands read only OP. -/
def Obligations.CommandWordFields : Prop :=
  ∀ w : Word,
    (op w = 2 → decode w = .ok (.keyexp (w.toNat / 2 ^ 24)
      (if w.toNat / 2 ^ 8 % 2 = 1 then some (w.toNat / 2 ^ 16 % 2 ^ 8) else none))) ∧
    (∀ v : Word, op v = op w → op w = 1 ∨ op w = 3 ∨ op w = 4 → decode v = decode w)

/-- R87: a word that differs from another only in ignored bits behaves identically; the outcome depends only on bits 3:0. -/
def Obligations.IgnoredBitsDoNotMatter : Prop :=
  ∀ w v : Word, op w = op v →
    ((op w = 2 → w.toNat / 2 ^ 16 = v.toNat / 2 ^ 16 ∧ w.toNat / 2 ^ 8 % 2 = v.toNat / 2 ^ 8 % 2) →
      ∀ s : State, completion w s = completion v s) ∧
    ((∃ i, decode w = .ok i) ↔ (∃ i, decode v = .ok i)) ∧
    (∀ i j, decode w = .ok i → decode v = .ok j → opcodeOf i = opcodeOf j)

/-- R90: the encoding examples; `KEYEXP 8, 0` is InvalidRoundCount at execution. -/
def Obligations.EncodingExamples : Prop :=
  encode .tblgen = 0x00000001 ∧ decode 0x00000001 = .ok .tblgen ∧
  encode (.keyexp 8 (some 6)) = 0x08060102 ∧ decode 0x08060102 = .ok (.keyexp 8 (some 6)) ∧
  encode (.keyexp 16 (some 10)) = 0x100A0102 ∧ decode 0x100A0102 = .ok (.keyexp 16 (some 10)) ∧
  encode (.keyexp 16 none) = 0x10000002 ∧ decode 0x10000002 = .ok (.keyexp 16 none) ∧
  encode (.keyexp 8 (some 50)) = 0x08320102 ∧ decode 0x08320102 = .ok (.keyexp 8 (some 50)) ∧
  encode (.keyexp 8 (some 0)) = 0x08000102 ∧ decode 0x08000102 = .ok (.keyexp 8 (some 0)) ∧
  encode .enc = 0x00000003 ∧ decode 0x00000003 = .ok .enc ∧
  encode .dec = 0x00000004 ∧ decode 0x00000004 = .ok .dec ∧
  decode 0xFFFFFFF3 = .ok .enc ∧ decode 0x00000007 = .error (.illegalOp 7) ∧
  (∀ s : State, s.tblValid = true → ∃ t, exec (.keyexp 8 (some 0)) s = .next t ∧ t.err = .invalidRoundCount)

/-! ## The handshake -/

/-- R86: an illegal word is accepted like any command, completes with ILLEGAL_CMD and changes nothing else. -/
def Obligations.IllegalWordCompletes : Prop :=
  ∀ (w : Word) (s : State), illegalOp w →
    (∀ addr : Addr, offsetOf addr = 0 → s.busy = false →
      hostWrite addr w s = { s with pend := some w, err := .ok, busy := true }) ∧
    (s.busy = true → s.pend = some w →
      engineTurn s = .next { s with err := .illegalCmd, pend := none, busy := false })

/-- R242: while BUSY = 1 the engine's step performs the command in PEND, and every completion empties PEND and clears BUSY. R242
gives the engine no step while BUSY = 0; that its turn then answers the same state is the model's choice (log 2). -/
def Obligations.EngineStepCompletesPend : Prop :=
  ∀ s : State,
    (s.busy = false → engineTurn s = .next s) ∧
    (∀ w, s.busy = true → s.pend = some w →
      (op w = 1 → engineTurn s = exec .tblgen s) ∧
      (op w = 2 → ∃ klen rounds, decode w = .ok (.keyexp klen rounds) ∧ engineTurn s = exec (.keyexp klen rounds) s) ∧
      (op w = 3 → engineTurn s = exec .enc s) ∧
      (op w = 4 → engineTurn s = exec .dec s) ∧
      (illegalOp w → engineTurn s = .next { s with err := .illegalCmd, pend := none, busy := false })) ∧
    (∀ i t, exec i s = .next t → t.pend = none ∧ t.busy = false)

/-- R242, R250: when the engine's turn comes and the word in PEND decodes to `i`, the step is `exec i`; the turn is used up and
nothing else is added. -/
def Obligations.StepRunsDecodedCommand : Prop :=
  ∀ (s : State) (w : Word) (i : Instr), s.busy = true → s.pend = some w → decode w = .ok i →
    (s.schedule = [] ∨ ∃ rest, s.schedule = .engine :: rest) →
    step s = exec i { s with schedule := s.schedule.tail }

/-- R37, R62, R64: however many host turns come between acceptance and completion, the command's result is the one it would
have had at once. -/
def Obligations.DelayedCompletionSameResult : Prop :=
  ∀ (k : Nat) (s s' t : State) (rest : List Turn), s.busy = true →
    s.schedule = List.replicate k .host ++ .engine :: rest → stepsTo k s s' → engineTurn s = .next t →
    ∃ t', step s' = .next t' ∧ t'.arch = t.arch

/-- R250, R249: a completion that stays enabled is taken: within as many steps as turns are scheduled, and one more.
(Turns as data, and the engine's turn after them, are the model's, log 1.) -/
def Obligations.BusyCommandEndsSoon : Prop :=
  ∀ s : State, EngineInv s → s.busy = true → s.hostRuns = true →
    ∃ k t, k ≤ s.schedule.length + 1 ∧ stepsTo k s t ∧ t.busy = false

/-- R250, R251: every host program whose accesses are full-width and whose names are assigned before they are written runs to its
end; a polling host does not spin for ever. (That an empty schedule gives a busy engine the turn is the model's weak fairness, log 1.) -/
def Obligations.HostProgramEnds : Prop :=
  ∀ s : State, EngineInv s → s.hostRuns = true → ∃ k t, stepsTo k s t ∧ t.runEnded = true

/-! ## The host port -/

/-- R54: HostRead, offset by offset. (An UNSPECIFIED read is the model's free value, log 4.) -/
def Obligations.HostReadMap : Prop :=
  ∀ (addr : Addr) (s : State),
    (offsetOf addr = 0x000 → (hostRead addr s).1 = 0) ∧
    (offsetOf addr = 0x004 → (hostRead addr s).1 = statusWord s) ∧
    (∀ n < 4, offsetOf addr = 0x010 + 4 * n → (hostRead addr s).1 = 0) ∧
    (∀ n < 2, offsetOf addr = 0x020 + 4 * n → (hostRead addr s).1.toNat = littleEndian s.din n) ∧
    (∀ n < 2, offsetOf addr = 0x028 + 4 * n → s.busy = false → (hostRead addr s).1.toNat = littleEndian s.dout n) ∧
    (∀ n < 64, offsetOf addr = 0x100 + 4 * n → s.busy = false → (hostRead addr s).1.toNat = littleEndian s.exp n) ∧
    (∀ n < 64, offsetOf addr = 0x200 + 4 * n → s.busy = false → (hostRead addr s).1.toNat = littleEndian s.log n) ∧
    (∀ n < 54, offsetOf addr = 0x300 + 4 * n → s.busy = false → (hostRead addr s).1.toNat = littleEndian s.sk n) ∧
    (reservedOffset (offsetOf addr) → (hostRead addr s).1 = 0) ∧
    (s.busy = true → (∃ n < 2, offsetOf addr = 0x028 + 4 * n) ∨ (∃ n < 64, offsetOf addr = 0x100 + 4 * n) ∨
      (∃ n < 64, offsetOf addr = 0x200 + 4 * n) ∨ (∃ n < 54, offsetOf addr = 0x300 + 4 * n) →
      (hostRead addr s).1 = Config.freeBits 32 s.freeCtr) ∧
    (∃ m, (hostRead addr s).2 = { s with freeCtr := m })

/-- R55, R241, R243: HostWrite, offset by offset: a write to CMD while BUSY = 0 is accepted in one atomic step, with no other state
changed; a write to any offset while BUSY = 1 is ignored. -/
def Obligations.HostWriteMap : Prop :=
  ∀ (addr : Addr) (v : Word) (s : State),
    (s.busy = true → hostWrite addr v s = s) ∧
    (s.busy = false →
      (offsetOf addr = 0x000 → hostWrite addr v s = { s with pend := some v, err := .ok, busy := true }) ∧
      (∀ n < 4, offsetOf addr = 0x010 + 4 * n → ∃ key, hostWrite addr v s = { s with key := key } ∧
        littleEndian key n = v.toNat ∧ ∀ i, i / 4 ≠ n → rd key i = rd s.key i) ∧
      (∀ n < 2, offsetOf addr = 0x020 + 4 * n → ∃ din, hostWrite addr v s = { s with din := din } ∧
        littleEndian din n = v.toNat ∧ ∀ i, i / 4 ≠ n → rd din i = rd s.din i) ∧
      (offsetOf addr = 0x004 ∨ offsetOf addr = 0x028 ∨ offsetOf addr = 0x02C ∨
        (0x100 ≤ offsetOf addr ∧ offsetOf addr ≤ 0x3D4) ∨ reservedOffset (offsetOf addr) → hostWrite addr v s = s))

/-- R53: bits 1:0 of an address are ignored; an access narrower than 32 bits is refused. -/
def Obligations.AddressLowBitsIgnored : Prop :=
  (∀ (a b : Addr), a.toNat / 4 = b.toNat / 4 →
    ∀ s : State, hostRead a s = hostRead b s ∧ ∀ v, hostWrite a v s = hostWrite b v s) ∧
  (∀ (s : State) (width : NarrowWidth) (a : Addr) (rest : List HostOp),
    s.program = .narrow width a :: rest → hostTurn s = .refused .narrowAccess)

/-- R52: a reserved offset reads as 0, ignores writes and has no side effect; every access to every offset completes. -/
def Obligations.ReservedOffsetsInert : Prop :=
  (∀ (addr : Addr) (v : Word) (s : State), reservedOffset (offsetOf addr) →
    hostRead addr s = (0, s) ∧ hostWrite addr v s = s) ∧
  (∀ (addr : Addr) (v : Word) (x : HostName) (s : State) (rest : List HostOp),
    (s.program = .rd addr x :: rest ∨ s.program = .wr addr (.lit v) :: rest) → ∃ t, hostTurn s = .next t)

/-- R56: byte 4n + b of an array is bits 8b+7:8b of its word n, in reads and in writes. -/
def Obligations.LittleEndianPacking : Prop :=
  ∀ (m : Nat) (t : Bytes m) (n b : Nat), b < 4 →
    (packWord t n).extractLsb' (8 * b) 8 = rd t (4 * n + b) ∧
    (4 * n + 3 < m → ∀ w : Word, rd (setWord t n w) (4 * n + b) = w.extractLsb' (8 * b) 8)

/-- R22: the layout of STATUS; a write to it is ignored. -/
def Obligations.StatusLayout : Prop :=
  (∀ s : State,
    (statusWord s).getLsbD 0 = s.busy ∧
    (statusWord s).getLsbD 1 = s.tblValid ∧
    (statusWord s).getLsbD 2 = s.schedValid ∧
    (statusWord s).getLsbD 3 = false ∧
    (statusWord s).extractLsb' 4 3 = s.err.code ∧
    (statusWord s).getLsbD 7 = false ∧
    (statusWord s).extractLsb' 8 4 = s.rounds ∧
    (statusWord s).extractLsb' 12 20 = 0) ∧
  (∀ (addr : Addr) (v : Word) (s : State), offsetOf addr = 0x004 → hostWrite addr v s = s ∧ hostRead addr s = (statusWord s, s)) ∧
  statusWord State.reset = 0

/-- R30: a DIN word reads back as written and the other one is untouched; ENC and DEC never write DIN; DIN resets to 0. -/
def Obligations.DinReadsBackAsWritten : Prop :=
  (∀ (a b : Addr) (v : Word) (s : State), s.busy = false →
    (offsetOf a = 0x020 ∧ offsetOf b = 0x024 ∨ offsetOf a = 0x024 ∧ offsetOf b = 0x020) →
    (hostRead a (hostWrite a v s)).1 = v ∧ (hostRead b (hostWrite a v s)).1 = (hostRead b s).1) ∧
  (∀ s t : State, exec .enc s = .next t ∨ exec .dec s = .next t → t.din = s.din) ∧
  (∀ i, rd State.reset.din i = 0)

/-- R29: KEY is write-only; every KEYEXP clears all 16 bytes, whatever its outcome; KEY resets to 0. -/
def Obligations.KeyIsWriteOnlyAndConsumed : Prop :=
  (∀ (addr : Addr) (s : State), (∃ n < 4, offsetOf addr = 0x010 + 4 * n) → hostRead addr s = (0, s)) ∧
  (∀ (n : Nat) (addr : Addr) (v : Word) (s : State), n < 4 → offsetOf addr = 0x010 + 4 * n → s.busy = false →
    ∀ b < 4, rd (hostWrite addr v s).key (4 * n + b) = v.extractLsb' (8 * b) 8) ∧
  (∀ (klen : Nat) (rounds : Option Nat) (s : State), ∃ t, exec (.keyexp klen rounds) s = .next t ∧ ∀ i, rd t.key i = 0) ∧
  (∀ i, rd State.reset.key i = 0)

/-- R29, R34, R35, R50: no host read that the spec gives a value, idle or busy, depends on KEY, on the key scratch or on the working
registers. (Of an UNSPECIFIED read nothing is said.) -/
def Obligations.ReadsRevealNoKey : Prop :=
  ∀ (addr : Addr) (s : State) (key : Bytes 16) (k1 k2 : Bytes 8) (ra rb : Bytes 9) (l : Lanes) (idx : BitVec 8) (rc : BitVec 4)
    (e gi : BitVec 9), s.busy = false ∨ ¬ unspecifiedWhileBusy (offsetOf addr) →
    (hostRead addr { s with key := key, k1 := k1, k2 := k2, ra := ra, rb := rb, lanes := l, idx := idx, rc := rc, eReg := e, gi := gi }).1
      = (hostRead addr s).1

/-- R54, R244: which reads are UNSPECIFIED: those of DOUT and of the windows while BUSY = 1, and no others; each of them draws a free
value of its own. While BUSY = 1 STATUS and DIN read their current values and all other offsets 0. (The free value, and the counter
it advances, are the model's form of UNSPECIFIED, log 4; nothing is said of what the value is.) -/
def Obligations.UnspecifiedReads : Prop :=
  ∀ (addr : Addr) (s : State),
    (s.busy = false → (hostRead addr s).2 = s) ∧
    (s.busy = true → unspecifiedWhileBusy (offsetOf addr) →
      hostRead addr s = (Config.freeBits 32 s.freeCtr, { s with freeCtr := s.freeCtr + 1 })) ∧
    (s.busy = true → ¬ unspecifiedWhileBusy (offsetOf addr) →
      (hostRead addr s).2 = s ∧
      (offsetOf addr = 0x004 → (hostRead addr s).1 = statusWord s) ∧
      (offsetOf addr = 0x020 → (hostRead addr s).1.toNat = littleEndian s.din 0) ∧
      (offsetOf addr = 0x024 → (hostRead addr s).1.toNat = littleEndian s.din 1) ∧
      (offsetOf addr ≠ 0x004 → offsetOf addr ≠ 0x020 → offsetOf addr ≠ 0x024 → (hostRead addr s).1 = 0))

/-- R89: the two host operations, with a literal or a name as the value written, the exact expansion of each pseudo-instruction, the
loop of POLL, and the block RDBLK reads. (That a name with no value is refused is the model's choice, log 3.) -/
def Obligations.PseudoInstructionExpansions : Prop :=
  (∀ (off : Addr) (v : Word) (s : State) (rest : List HostOp), s.program = .wr off (.lit v) :: rest →
    hostTurn s = .next { hostWrite off v s with program := rest }) ∧
  (∀ (off : Addr) (x : HostName) (s : State) (rest : List HostOp), s.program = .wr off (.var x) :: rest →
    (∀ w, lookupName x s.vars = some w → hostTurn s = .next { hostWrite off w s with program := rest }) ∧
    (lookupName x s.vars = none → hostTurn s = .refused .unboundName)) ∧
  (∀ (vars : List (HostName × Word)) (x y : HostName) (w : Word),
    lookupName x (assignName x w vars) = some w ∧ (y ≠ x → lookupName y (assignName x w vars) = lookupName y vars)) ∧
  (∀ (off : Addr) (x : HostName) (s : State) (rest : List HostOp), s.program = .rd off x :: rest →
    hostTurn s = .next { (hostRead off s).2 with vars := assignName x (hostRead off s).1 s.vars, program := rest }) ∧
  (∀ s, expandHost (.poll s) = some [.poll s]) ∧
  (∀ (x : HostName) (s : State) (rest : List HostOp), s.program = .poll x :: rest →
    hostTurn s = .next { s with
      vars := assignName x (statusWord s) s.vars
      program := if s.busy = true then .poll x :: rest else rest }) ∧
  (∀ cmd s, expandHost (.issue cmd s) =
    if cmd.wellFormed then some [.wr 0x000 (.lit (encode cmd)), .poll s] else none) ∧
  (∀ k0 k1 k2 k3 k4 k5 k6 k7 k8 k9 k10 k11 k12 k13 k14 k15 : Byte,
    expandHost (.ldkey [k0, k1, k2, k3, k4, k5, k6, k7, k8, k9, k10, k11, k12, k13, k14, k15]) = some
      [ .wr 0x010 (.lit (k3 ++ k2 ++ k1 ++ k0)), .wr 0x014 (.lit (k7 ++ k6 ++ k5 ++ k4)),
        .wr 0x018 (.lit (k11 ++ k10 ++ k9 ++ k8)), .wr 0x01C (.lit (k15 ++ k14 ++ k13 ++ k12)) ]) ∧
  (∀ ks : List Byte, ks.length ≤ 16 →
    expandHost (.ldkey ks) = expandHost (.ldkey (ks ++ List.replicate (16 - ks.length) 0))) ∧
  (∀ b0 b1 b2 b3 b4 b5 b6 b7 : Byte, expandHost (.ldblk b0 b1 b2 b3 b4 b5 b6 b7) = some
    [.wr 0x020 (.lit (b3 ++ b2 ++ b1 ++ b0)), .wr 0x024 (.lit (b7 ++ b6 ++ b5 ++ b4))]) ∧
  (∀ w0 w1, expandHost (.ldblkName w0 w1) = some [.wr 0x020 (.var w0), .wr 0x024 (.var w1)]) ∧
  (∀ w0 w1, expandHost (.rdblk w0 w1) = some [.rd 0x028 w0, .rd 0x02C w1]) ∧
  (∀ (vars : List (HostName × Word)) (w0 w1 : HostName) (u v : Word),
    lookupName w0 vars = some u → lookupName w1 vars = some v →
    ∃ n : Bytes 8, blockOfNames vars w0 w1 = some n ∧ littleEndian n 0 = u.toNat ∧ littleEndian n 1 = v.toNat)

/-! ## Reset and the life of the status fields -/

/-- R231: the state after reset. -/
def Obligations.ResetState : Prop :=
  State.reset.busy = false ∧ State.reset.tblValid = false ∧ State.reset.schedValid = false ∧ State.reset.err = .ok ∧
  State.reset.rounds = 0 ∧ statusWord State.reset = 0 ∧ State.reset.pend = none ∧
  (∀ i, rd State.reset.key i = 0 ∧ rd State.reset.din i = 0 ∧ rd State.reset.dout i = 0 ∧ rd State.reset.exp i = 0 ∧
    rd State.reset.log i = 0 ∧ rd State.reset.sk i = 0 ∧ rd State.reset.k1 i = 0 ∧ rd State.reset.k2 i = 0 ∧
    rd State.reset.ra i = 0 ∧ rd State.reset.rb i = 0) ∧
  State.reset.lanes = ⟨0, 0, 0, 0, 0, 0, 0, 0⟩ ∧ State.reset.idx = 0 ∧ State.reset.rc = 0 ∧ State.reset.eReg = 0 ∧
  State.reset.gi = 0

/-- R230: reset, at any time, also while BUSY = 1, sets every element of the engine to its value of R231 and abandons the command in
flight. (The host's program and names, the schedule and the free-value counter are no engine state.) -/
def Obligations.ResetAbandonsCommand : Prop :=
  ∀ s : State, nextTurn s = .reset →
    ∃ t, step s = .next t ∧
      t = { State.reset with program := t.program, vars := t.vars, schedule := t.schedule, freeCtr := t.freeCtr } ∧
      t.pend = none ∧ t.busy = false

/-- R23: acceptance sets BUSY, completion and reset clear it, and nothing else changes it. -/
def Obligations.BusyChangesOnlyByHandshake : Prop :=
  (∀ (addr : Addr) (v : Word) (s : State), s.busy = false → offsetOf addr = 0 → (hostWrite addr v s).busy = true) ∧
  (∀ s t : State, engineTurn s = .next t → t.busy = false) ∧
  State.reset.busy = false ∧
  ∀ s t : State, step s = .next t → t.busy ≠ s.busy →
    (s.busy = false ∧ nextTurn s = .host ∧ ∃ off v rest, s.program = .wr off v :: rest ∧ offsetOf off = 0) ∨
    (s.busy = true ∧ nextTurn s = .engine) ∨ (s.busy = true ∧ nextTurn s = .reset)

/-- R24: TBL_VALID is set by TBLGEN and cleared only by reset; when it is 1 the tables are those of R101. -/
def Obligations.TblValidLife : Prop :=
  (∀ s : State, ∃ t, exec .tblgen s = .next t ∧ t.tblValid = true) ∧
  (∀ s t : State, step s = .next t → s.tblValid = true → t.tblValid = false → nextTurn s = .reset) ∧
  (∀ s t : State, EngineInv s → step s = .next t → t.tblValid = true →
    ∀ i < 256, rd t.exp i = BitVec.ofNat 8 (45 ^ i % 257) ∧ rd t.log (45 ^ i % 257 % 256) = BitVec.ofNat 8 i)

/-- R25: SCHED_VALID is set by a successful KEYEXP, cleared by a failed one and by reset; while it is 0, ENC and DEC fail with
NO_SCHEDULE. -/
def Obligations.SchedValidLife : Prop :=
  (∀ (klen : Nat) (rounds : Option Nat) (s : State), ∃ t, exec (.keyexp klen rounds) s = .next t ∧
    (t.schedValid = true ↔ t.err = .ok)) ∧
  State.reset.schedValid = false ∧
  (∀ s t : State, step s = .next t → t.schedValid ≠ s.schedValid → nextTurn s = .reset ∨
    (nextTurn s = .engine ∧ ∃ w klen rounds, s.pend = some w ∧ decode w = .ok (.keyexp klen rounds))) ∧
  (∀ s : State, s.schedValid = false → ∃ t, exec .enc s = .next t ∧ t.err = .noSchedule) ∧
  (∀ s : State, s.schedValid = false → ∃ t, exec .dec s = .next t ∧ t.err = .noSchedule)

/-- R26: ERR is cleared at acceptance, written at completion, and kept otherwise. R201: the number of each code. -/
def Obligations.ErrLife : Prop :=
  (∀ (addr : Addr) (v : Word) (s : State), s.busy = false → offsetOf addr = 0 → (hostWrite addr v s).err = .ok) ∧
  (∀ s t : State, step s = .next t → t.err ≠ s.err →
    (t.err = .ok ∧ t.busy = true ∧ s.busy = false) ∨ (s.busy = true ∧ t.busy = false ∧ nextTurn s = .engine) ∨
    nextTurn s = .reset) ∧
  ErrCode.ok.code = 0 ∧ ErrCode.illegalCmd.code = 1 ∧ ErrCode.noTable.code = 2 ∧ ErrCode.invalidRoundCount.code = 3 ∧
  ErrCode.noSchedule.code = 4 ∧
  (∀ s : State, s.err.code.toNat ≤ 4)

/-- R31: only a successful ENC or DEC (and reset) writes DOUT; a host write to it is ignored; it reads packed like DIN. -/
def Obligations.DoutWrittenOnlyByCipher : Prop :=
  (∀ (addr : Addr) (s : State), ∀ n < 2, offsetOf addr = 0x028 + 4 * n → s.busy = false →
    (hostRead addr s).1.toNat = littleEndian s.dout n) ∧
  (∀ s t : State, step s = .next t → t.dout ≠ s.dout → nextTurn s = .reset ∨
    (nextTurn s = .engine ∧ s.schedValid = true ∧ t.err = .ok ∧
      ∃ w, s.pend = some w ∧ (decode w = .ok .enc ∨ decode w = .ok .dec))) ∧
  (∀ (addr : Addr) (v : Word) (s : State), offsetOf addr = 0x028 ∨ offsetOf addr = 0x02C → hostWrite addr v s = s) ∧
  (∀ i, rd State.reset.dout i = 0)

/-- R32, R69: only KEYEXP and reset write SK, only TBLGEN and reset write EXP and LOG; ENC and DEC only read them. -/
def Obligations.InternalMemoriesWriters : Prop :=
  (∀ s t : State, exec .enc s = .next t ∨ exec .dec s = .next t →
    t.sk = s.sk ∧ t.rounds = s.rounds ∧ t.schedValid = s.schedValid ∧ t.exp = s.exp ∧ t.log = s.log) ∧
  (∀ s t : State, step s = .next t → t.sk ≠ s.sk → nextTurn s = .reset ∨
    (nextTurn s = .engine ∧ ∃ w klen rounds, s.pend = some w ∧ decode w = .ok (.keyexp klen rounds))) ∧
  (∀ s t : State, step s = .next t → t.exp ≠ s.exp ∨ t.log ≠ s.log → nextTurn s = .reset ∨
    (nextTurn s = .engine ∧ ∃ w, s.pend = some w ∧ decode w = .ok .tblgen)) ∧
  (∀ i, rd State.reset.sk i = 0 ∧ rd State.reset.exp i = 0 ∧ rd State.reset.log i = 0)

/-! ## Invariants -/

/-- R37, R38: the invariant holds after reset. -/
def Obligations.InvariantHoldsAtReset : Prop := EngineInv State.reset

/-- R37, R38: every step keeps the invariant, from every state that has it. -/
def Obligations.StepKeepsInvariant : Prop := ∀ s t : State, EngineInv s → step s = .next t → EngineInv t

/-- R37, R52, R200, I8: no step of a state with the invariant faults, and where no operation of the host's program is refused
(`State.hostRuns`) every step answers a next state. (The faults left out are logs 6 and 8, the refusals R53 and log 3.) -/
def Obligations.StepAnswersFromInvariant : Prop :=
  (∀ (s : State) (f : Fault), EngineInv s → step s ≠ .fault f) ∧
  (∀ s : State, EngineInv s → s.hostRuns = true → Answers s)

/-! ## TBLGEN -/

/-- R101, R103, R105: TBLGEN always completes, with the tables of the powers of 45 modulo 257 whatever the arrays held, and changes
nothing but them, TBL_VALID, ERR, BUSY, PEND and its own registers E and gi. (That E and gi are left free, and L, idx and rc as they
were, is the model's reading of R35, log 5.) -/
def Obligations.TblgenBuildsTables : Prop :=
  ∀ s : State, ∃ (exp log : Bytes 256) (e g : BitVec 9) (n : Nat),
    exec .tblgen s = .next { s with
      exp := exp, log := log, tblValid := true, eReg := e, gi := g, freeCtr := n, err := .ok, pend := none, busy := false } ∧
    (∀ i < 256, rd exp i = BitVec.ofNat 8 (45 ^ i % 257 % 256)) ∧
    (∀ i < 256, rd log (45 ^ i % 257 % 256) = BitVec.ofNat 8 i)

/-- R102, R106: the table law and the corner values of the tables. -/
def Obligations.TableLaw : Prop :=
  (∀ i < 256, rd builtExp i = BitVec.ofNat 8 (45 ^ i % 257 % 256)) ∧
  (∀ v, 1 ≤ v → v ≤ 256 → ∃ i < 256, 45 ^ i % 257 = v ∧ ∀ j < 256, 45 ^ j % 257 = v → j = i) ∧
  (∀ x : Byte, lookup builtLog (lookup builtExp x) = x ∧ lookup builtExp (lookup builtLog x) = x) ∧
  rd builtExp 0 = 1 ∧ rd builtExp 128 = 0 ∧ rd builtLog 0 = 128 ∧ rd builtLog 1 = 0 ∧ rd builtExp 255 = 40 ∧
  (∀ i < 256, rd builtExp i = 0 → i = 128) ∧ (∀ i < 256, rd builtExp i = 1 → i = 0)

/-- R104: every completion of TBLGEN writes the same 512 bytes. -/
def Obligations.TblgenReissue : Prop :=
  (∀ s s' t t' : State, exec .tblgen s = .next t → exec .tblgen s' = .next t' → t.exp = t'.exp ∧ t.log = t'.log) ∧
  (∀ s t : State, EngineInv s → s.tblValid = true → exec .tblgen s = .next t → t.exp = s.exp ∧ t.log = s.log)

/-! ## KEYEXP -/

/-- R134, R204: which code KEYEXP reports; NO_TABLE first. -/
def Obligations.KeyexpErrorCodes : Prop :=
  ∀ (klen : Nat) (rounds : Option Nat) (s : State), ∃ t, exec (.keyexp klen rounds) s = .next t ∧
    t.err = (if s.tblValid = false then .noTable else if rounds = some 0 then .invalidRoundCount else .ok)

/-- R129: what a failed KEYEXP leaves; EXP, LOG, TBL_VALID, DIN, DOUT and the rest are unchanged. -/
def Obligations.KeyexpFailureEffects : Prop :=
  ∀ (klen : Nat) (rounds : Option Nat) (s : State), s.tblValid = false ∨ rounds = some 0 →
    exec (.keyexp klen rounds) s = .next { s with
      sk := Vector.replicate 216 0, rounds := 0, schedValid := false
      k1 := Vector.replicate 8 0, k2 := Vector.replicate 8 0, ra := Vector.replicate 9 0, rb := Vector.replicate 9 0
      key := Vector.replicate 16 0
      err := if s.tblValid = false then .noTable else .invalidRoundCount
      pend := none, busy := false }

/-- R121, R128, R120: a successful KEYEXP: the round count it resolves, its status, the cleared key and scratch, and that nothing else
but the store changes. (That L, idx, rc, E and gi, which KEYEXP does not use, stay as they were is the model's reading of R35, log 5.) -/
def Obligations.KeyexpSuccessEffects : Prop :=
  ∀ (klen : Nat) (rounds : Option Nat) (s : State), s.tblValid = true → rounds ≠ some 0 →
    ∃ sk : Bytes 216, exec (.keyexp klen rounds) s = .next { s with
      sk := sk
      rounds := BitVec.ofNat 4 (match rounds with
        | some rreq => if 13 < rreq then 13 else rreq
        | none => if klen ≤ 8 then 8 else 10)
      schedValid := true
      k1 := Vector.replicate 8 0, k2 := Vector.replicate 8 0, ra := Vector.replicate 9 0, rb := Vector.replicate 9 0
      key := Vector.replicate 16 0
      err := .ok, pend := none, busy := false }

/-- R122, R123, R124, R125, R126: every byte of the schedule, in closed form: group 0 is K2, round r's bytes are an accumulator lane
rotated 6r bits plus the round constant, the rest is 0. -/
def Obligations.KeyexpScheduleBytes : Prop :=
  ∀ (klen : Nat) (rounds : Option Nat) (s t : State), s.tblValid = true → rounds ≠ some 0 →
    exec (.keyexp klen rounds) s = .next t →
    (∀ i < 8, rd t.sk i = k2 s.key klen i) ∧
    (∀ r, 1 ≤ r → r ≤ t.rounds.toNat → ∀ j < 8,
      rd t.sk (8 + 16 * (r - 1) + j)
        = (ra0 s.key klen ((j + 2 * r - 1) % 9)).rotateLeft (6 * r) + constant s.exp (18 * r + j + 1) ∧
      rd t.sk (8 + 16 * (r - 1) + 8 + j)
        = (rb0 s.key klen ((j + 2 * r) % 9)).rotateLeft (6 * r) + constant s.exp (18 * r + j + 10)) ∧
    (∀ i, 8 + 16 * t.rounds.toNat ≤ i → rd t.sk i = 0)

/-- R128: a successful KEYEXP 'replaces the whole previous schedule': nothing it leaves depends on the earlier one (R33: nor does a
failed one's result). -/
def Obligations.KeyexpReplacesSchedule : Prop :=
  ∀ (klen : Nat) (rounds : Option Nat) (s : State) (sk : Bytes 216) (r : BitVec 4) (b : Bool),
    exec (.keyexp klen rounds) { s with sk := sk, rounds := r, schedValid := b } = exec (.keyexp klen rounds) s

/-- R122, R135 (d): KEY bytes at index min(KLEN, 16) or above are ignored, whatever the host wrote there, and KLEN in [17, 255] behaves
exactly as KLEN = 16. -/
def Obligations.KeyexpIgnoresUnusedKeyBytes : Prop :=
  (∀ (klen : Nat) (rounds : Option Nat) (s : State) (key : Bytes 16), (∀ i, i < min klen 16 → rd key i = rd s.key i) →
    exec (.keyexp klen rounds) { s with key := key } = exec (.keyexp klen rounds) s) ∧
  (∀ (klen : Nat) (rounds : Option Nat) (s : State), 16 ≤ klen → exec (.keyexp klen rounds) s = exec (.keyexp 16 rounds) s)

/-- R132: an 8-byte key K expands as the 16-byte key K‖K; only the default round count differs. -/
def Obligations.ShortKeyDuplication : Prop :=
  ∀ (s : State) (key2 : Bytes 16), s.tblValid = true → (∀ i < 8, rd key2 i = rd s.key i ∧ rd key2 (8 + i) = rd s.key i) →
    (∀ rreq, rreq ≠ 0 → ∃ t t', exec (.keyexp 8 (some rreq)) s = .next t ∧
      exec (.keyexp 16 (some rreq)) { s with key := key2 } = .next t' ∧ t.sk = t'.sk ∧ t.rounds = t'.rounds) ∧
    (∃ t t', exec (.keyexp 8 none) s = .next t ∧ exec (.keyexp 16 none) { s with key := key2 } = .next t' ∧
      t.rounds = 8 ∧ t'.rounds = 10)

/-- R133: any RREQ in [13, 255] acts as 13, in the whole next state. -/
def Obligations.RoundCountClamp : Prop :=
  ∀ (klen rreq : Nat) (s : State), 13 ≤ rreq → rreq ≤ 255 →
    exec (.keyexp klen (some rreq)) s = exec (.keyexp klen (some 13)) s ∧
    (s.tblValid = true → ∃ t, exec (.keyexp klen (some rreq)) s = .next t ∧ t.rounds = 13)

/-- R246: a second KEYEXP without a write of KEY in between expands the all-zero key, whatever the first key was. -/
def Obligations.SecondKeyexpExpandsZeroKey : Prop :=
  ∀ (klen klen' : Nat) (rounds rounds' : Option Nat) (s t : State), exec (.keyexp klen rounds) s = .next t →
    exec (.keyexp klen' rounds') t = exec (.keyexp klen' rounds') { t with key := Vector.replicate 16 0 } ∧
    (s.tblValid = true → rounds' ≠ some 0 → ∃ u, exec (.keyexp klen' rounds') t = .next u ∧
      ∀ r, 1 ≤ r → r ≤ u.rounds.toNat → ∀ j < 8,
        rd u.sk (8 + 16 * (r - 1) + j) = constant s.exp (18 * r + j + 1) ∧
        rd u.sk (8 + 16 * (r - 1) + 8 + j) = constant s.exp (18 * r + j + 10))

/-! ## ENC and DEC -/

/-- R159, R189: ENC and DEC without a schedule: NO_SCHEDULE, DOUT and everything else unchanged but ERR and BUSY (PEND empties with
BUSY, R242); they raise no other error, and cannot meet TBL_VALID = 0 without SCHED_VALID = 0. -/
def Obligations.CipherWithoutSchedule : Prop :=
  (∀ s : State, s.schedValid = false →
    exec .enc s = .next { s with err := .noSchedule, pend := none, busy := false } ∧
    exec .dec s = .next { s with err := .noSchedule, pend := none, busy := false }) ∧
  (∀ s t : State, s.schedValid = true → exec .enc s = .next t ∨ exec .dec s = .next t → t.err = .ok) ∧
  (∀ s : State, EngineInv s → s.tblValid = false → s.schedValid = false)

/-- R152 to R158, R150: with a schedule ENC completes: DOUT is the block that R rounds, round k with SK[16k .. 16k+15], and the output
transform with SK[16R .. 16R+7] give; nothing else changes but ERR, BUSY, PEND and the working registers L, idx, rc. (That L, idx and rc are left free, and E and gi as
they were, is the model's reading of R35, log 5; ROUNDS = 0 beside a valid schedule is log 16's case, which no run reaches. What `mix`
computes is `MixingFormulas`.) -/
def Obligations.EncCompletes : Prop :=
  ∀ s : State, s.schedValid = true → s.rounds.toNat ≤ 13 →
    ∃ (dout : Bytes 8) (l : Lanes) (idx : BitVec 8) (rc : BitVec 4) (n : Nat),
      exec .enc s = .next { s with
        dout := dout, lanes := l, idx := idx, rc := rc, freeCtr := n, err := .ok, pend := none, busy := false } ∧
      (let r := s.rounds.toNat
       let x := encLanes s.exp s.log s.sk r ⟨rd s.din 0, rd s.din 1, rd s.din 2, rd s.din 3, rd s.din 4, rd s.din 5, rd s.din 6, rd s.din 7⟩
       rd dout 0 = x.a ^^^ rd s.sk (16 * r) ∧ rd dout 1 = x.b + rd s.sk (16 * r + 1) ∧
       rd dout 2 = x.c + rd s.sk (16 * r + 2) ∧ rd dout 3 = x.d ^^^ rd s.sk (16 * r + 3) ∧
       rd dout 4 = x.e ^^^ rd s.sk (16 * r + 4) ∧ rd dout 5 = x.f + rd s.sk (16 * r + 5) ∧
       rd dout 6 = x.g + rd s.sk (16 * r + 6) ∧ rd dout 7 = x.h ^^^ rd s.sk (16 * r + 7))

/-- R183, R187, R188, R180: with a schedule DEC completes: DOUT is a block whose encryption by R150 to R157 is DIN, for tables that
invert each other; nothing else changes but ERR, BUSY, PEND and the working registers L, idx, rc. (Their values, and that E and gi stay, are the model's
reading of R35, log 5; ROUNDS = 0 beside a valid schedule is log 16's case.) -/
def Obligations.DecCompletes : Prop :=
  ∀ s : State, s.schedValid = true → s.rounds.toNat ≤ 13 →
    ∃ (dout : Bytes 8) (l : Lanes) (idx : BitVec 8) (rc : BitVec 4) (n : Nat),
      exec .dec s = .next { s with
        dout := dout, lanes := l, idx := idx, rc := rc, freeCtr := n, err := .ok, pend := none, busy := false } ∧
      ((∀ x : Byte, lookup s.log (lookup s.exp x) = x ∧ lookup s.exp (lookup s.log x) = x) →
        encryptBlock s.exp s.log s.sk s.rounds.toNat dout = s.din)

/-- R157: the cursor of ENC: 16rc before round rc, 16R before the output transform, at most 208; and every index read is inside
the schedule. -/
def Obligations.EncCursor : Prop :=
  ∀ (exp log : Bytes 256) (sk : Bytes 216) (l : Lanes) (r k : Nat), r ≤ 13 → k ≤ r →
    (encRounds exp log sk k ⟨l, 0⟩).idx.toNat = 16 * k ∧ (encRounds exp log sk k ⟨l, 0⟩).idx.toNat ≤ 208 ∧
    (k < r → (encRounds exp log sk k ⟨l, 0⟩).idx.toNat + 15 ≤ Config.skLen r - 1) ∧
    (encRounds exp log sk r ⟨l, 0⟩).idx.toNat + 7 = Config.skLen r - 1

/-- R183: the cursor of DEC: SK_LEN(R)-1, then 16(R-1-rc)+15 before iteration rc, and 255 after the last. -/
def Obligations.DecCursor : Prop :=
  ∀ (exp log : Bytes 256) (sk : Bytes 216) (l : Lanes) (r k : Nat), 1 ≤ r → r ≤ 13 → k < r →
    let start := undoOutput sk (BitVec.ofNat 8 (Config.skLen r - 1)) l
    (BitVec.ofNat 8 (Config.skLen r - 1)).toNat = Config.skLen r - 1 ∧
    (decRounds exp log sk k start).idx.toNat = 16 * (r - 1 - k) + 15 ∧
    (decRounds exp log sk r start).idx = 255

/-- R151, R181: PHT is (x, y) -> (2x + y, x + y), and invPHT inverts it on both sides. -/
def Obligations.PhtAndInverse : Prop :=
  ∀ x y : Byte, pht x y = (x + (x + y), x + y) ∧ pht x y = (2 * x + y, x + y) ∧
    invPht x y = (x - y, y - (x - y)) ∧
    invPht (pht x y).1 (pht x y).2 = (x, y) ∧ pht (invPht x y).1 (invPht x y).2 = (x, y)

/-- R153: the PHT network is one linear map of the eight lanes modulo 256. -/
def Obligations.PhtNetworkMatrix : Prop :=
  ∀ l : Lanes,
    (phtNetwork l).a = 8 * l.a + 4 * l.b + 4 * l.c + 2 * l.d + 4 * l.e + 2 * l.f + 2 * l.g + l.h ∧
    (phtNetwork l).b = 4 * l.a + 4 * l.b + 2 * l.c + 2 * l.d + 2 * l.e + 2 * l.f + l.g + l.h ∧
    (phtNetwork l).c = 4 * l.a + 2 * l.b + 4 * l.c + 2 * l.d + 2 * l.e + l.f + 2 * l.g + l.h ∧
    (phtNetwork l).d = 2 * l.a + 2 * l.b + 2 * l.c + 2 * l.d + l.e + l.f + l.g + l.h ∧
    (phtNetwork l).e = 4 * l.a + 2 * l.b + 2 * l.c + l.d + 4 * l.e + 2 * l.f + 2 * l.g + l.h ∧
    (phtNetwork l).f = 2 * l.a + 2 * l.b + l.c + l.d + 2 * l.e + 2 * l.f + l.g + l.h ∧
    (phtNetwork l).g = 2 * l.a + l.b + 2 * l.c + l.d + 2 * l.e + l.f + 2 * l.g + l.h ∧
    (phtNetwork l).h = l.a + l.b + l.c + l.d + l.e + l.f + l.g + l.h

/-- R152, R186: the nonlinear mixing and its undoing, lane by lane: EXP on a, d, e, h and LOG on b, c, f, g, the roles swapped in
decryption; `i` is the index of the first of the round's 16 subkeys. -/
def Obligations.MixingFormulas : Prop :=
  ∀ (exp log : Bytes 256) (sk : Bytes 216) (i : Nat) (l : Lanes),
    mix exp log sk i l =
      { a := rd exp (l.a ^^^ rd sk i).toNat + rd sk (i + 8)
        b := rd log (l.b + rd sk (i + 1)).toNat ^^^ rd sk (i + 9)
        c := rd log (l.c + rd sk (i + 2)).toNat ^^^ rd sk (i + 10)
        d := rd exp (l.d ^^^ rd sk (i + 3)).toNat + rd sk (i + 11)
        e := rd exp (l.e ^^^ rd sk (i + 4)).toNat + rd sk (i + 12)
        f := rd log (l.f + rd sk (i + 5)).toNat ^^^ rd sk (i + 13)
        g := rd log (l.g + rd sk (i + 6)).toNat ^^^ rd sk (i + 14)
        h := rd exp (l.h ^^^ rd sk (i + 7)).toNat + rd sk (i + 15) } ∧
    unmix exp log sk (i + 15) l =
      { a := rd log (l.a - rd sk (i + 8)).toNat ^^^ rd sk i
        b := rd exp (l.b ^^^ rd sk (i + 9)).toNat - rd sk (i + 1)
        c := rd exp (l.c ^^^ rd sk (i + 10)).toNat - rd sk (i + 2)
        d := rd log (l.d - rd sk (i + 11)).toNat ^^^ rd sk (i + 3)
        e := rd log (l.e - rd sk (i + 12)).toNat ^^^ rd sk (i + 4)
        f := rd exp (l.f ^^^ rd sk (i + 13)).toNat - rd sk (i + 5)
        g := rd exp (l.g ^^^ rd sk (i + 14)).toNat - rd sk (i + 6)
        h := rd log (l.h - rd sk (i + 15)).toNat ^^^ rd sk (i + 7) }

/-- R184, R185, R186: each inverse layer undoes its layer on both sides; the mixing does, for tables that invert each other. -/
def Obligations.InverseLayers : Prop :=
  (∀ l : Lanes, permute l = ⟨l.a, l.e, l.b, l.f, l.c, l.g, l.d, l.h⟩ ∧ unpermute l = ⟨l.a, l.c, l.e, l.g, l.b, l.d, l.f, l.h⟩) ∧
  (∀ l : Lanes, unpermute (permute l) = l ∧ permute (unpermute l) = l ∧
    undoNetwork (phtNetwork l) = l ∧ phtNetwork (undoNetwork l) = l) ∧
  (∀ (exp log : Bytes 256) (sk : Bytes 216) (k : Nat) (l : Lanes),
    (∀ x : Byte, lookup log (lookup exp x) = x ∧ lookup exp (lookup log x) = x) →
    unmix exp log sk (16 * k + 15) (mix exp log sk (16 * k) l) = l ∧
    mix exp log sk (16 * k) (unmix exp log sk (16 * k + 15) l) = l)

/-- R187: for every valid schedule, DEC of ENC's result gives the block back, ENC of DEC's result does too, and ENC is a bijection
on blocks. -/
def Obligations.EncDecRoundTrip : Prop :=
  ∀ s : State, EngineInv s → s.schedValid = true →
    (∃ t u, exec .enc s = .next t ∧ exec .dec { t with din := t.dout } = .next u ∧ u.dout = s.din) ∧
    (∃ t u, exec .dec s = .next t ∧ exec .enc { t with din := t.dout } = .next u ∧ u.dout = s.din) ∧
    Function.Bijective (encryptBlock s.exp s.log s.sk s.rounds.toNat) ∧
    Function.LeftInverse (decryptBlock s.exp s.log s.sk s.rounds.toNat) (encryptBlock s.exp s.log s.sk s.rounds.toNat) ∧
    Function.RightInverse (decryptBlock s.exp s.log s.sk s.rounds.toNat) (encryptBlock s.exp s.log s.sk s.rounds.toNat)

/-- R160, R188: the result of ENC and of DEC is a function of DIN, SK[0 .. SK_LEN(R)-1] and R alone, given valid tables. -/
def Obligations.CipherReadsOnlyItsSchedule : Prop :=
  ∀ s s' t t' : State, EngineInv s → EngineInv s' → s.schedValid = true → s'.schedValid = true → s.din = s'.din → s.rounds = s'.rounds →
    (∀ i, i < 8 + 16 * s.rounds.toNat → rd s.sk i = rd s'.sk i) →
    (exec .enc s = .next t → exec .enc s' = .next t' → t.dout = t'.dout) ∧
    (exec .dec s = .next t → exec .dec s' = .next t' → t.dout = t'.dout)

/-- R27, I8: ROUNDS values 14 and 15 never occur in a state with the invariant, and ENC and DEC fault where they read one. -/
def Obligations.ReservedRoundsUnreachable : Prop :=
  (∀ s : State, EngineInv s → s.rounds.toNat ≤ 13 ∧ (s.rounds = 0 → s.schedValid = false)) ∧
  (∀ s : State, s.schedValid = true → 13 < s.rounds.toNat →
    exec .enc s = .fault .roundsReserved ∧ exec .dec s = .fault .roundsReserved)

/-! ## Timing and the end of a run -/

/-- R249: which latency applies; it depends only on the command and R, and a failing or illegal command takes T_ERR. -/
def Obligations.LatencyByCommand : Prop :=
  ∀ (w : Word) (tv sv : Bool) (rounds : BitVec 4),
    (op w = 1 → latency w tv sv rounds = Config.tTblgen) ∧
    (∀ klen rr, decode w = .ok (.keyexp klen rr) → tv = true → rr ≠ some 0 →
      latency w tv sv rounds = Config.tKeyexp (match rr with
        | some rreq => if 13 < rreq then 13 else rreq
        | none => if klen ≤ 8 then 8 else 10)) ∧
    (∀ klen rr, decode w = .ok (.keyexp klen rr) → tv = false ∨ rr = some 0 → latency w tv sv rounds = Config.tErr) ∧
    (op w = 3 → latency w tv sv rounds = if sv then Config.tEnc rounds.toNat else Config.tErr) ∧
    (op w = 4 → latency w tv sv rounds = if sv then Config.tDec rounds.toNat else Config.tErr) ∧
    (illegalOp w → latency w tv sv rounds = Config.tErr)

/-- R251: the observation of an ended run is STATUS, DIN, DOUT and the EXP, LOG and SK windows, word by word; it does not say what L,
idx, rc, E and gi hold, nor anything of the host, the schedule or the free values. -/
def Obligations.ObservationOfEndedRun : Prop :=
  (∀ s : State, s.runEnded = true ↔ s.program = [] ∧ s.busy = false) ∧
  (∀ s : State, s.runEnded = true →
    (observe s).status = statusWord s ∧
    (observe s).din.map BitVec.toNat = arrayWords s.din 2 ∧
    (observe s).dout.map BitVec.toNat = arrayWords s.dout 2 ∧
    (observe s).expWindow.map BitVec.toNat = arrayWords s.exp 64 ∧
    (observe s).logWindow.map BitVec.toNat = arrayWords s.log 64 ∧
    (observe s).skWindow.map BitVec.toNat = arrayWords s.sk 54) ∧
  (∀ s s' : State, s.runEnded = true → s'.runEnded = true → s.arch = s'.arch → observe s = observe s')
end

