-- ==== Sys2Proof/Laws/Arrays.lean ====
section
/-! SUPPORT. The laws of array access, loops and word packing. -/

namespace Sys2Proof.Machine

@[simp] theorem rd_zeros (n i : Nat) : rd (zeros n) i = 0 := by
  simp only [rd, zeros, Vector.getElem?_replicate]
  split <;> rfl

/-- Reading an index outside the array (R13: it never occurs). -/
theorem rd_of_le {n i : Nat} (t : Bytes n) (h : n ≤ i) : rd t i = 0 := by
  simp [rd, Vector.getElem?_eq_none h]

theorem rd_of_lt {n i : Nat} (t : Bytes n) (h : i < n) : rd t i = t[i] := by
  simp [rd, h]

/-- Read after write, at any two indices. -/
theorem rd_wr {n : Nat} (t : Bytes n) (i j : Nat) (v : Byte) :
    rd (wr t i v) j = if i = j ∧ i < n then v else rd t j := by
  simp only [rd, wr, Vector.getElem?_setIfInBounds]
  by_cases hij : i = j
  · subst hij
    by_cases hi : i < n <;> simp [hi]
  · simp [hij]

@[simp] theorem rd_wr_same {n i : Nat} (t : Bytes n) (v : Byte) (h : i < n) : rd (wr t i v) i = v := by
  simp [rd_wr, h]

theorem rd_wr_other {n i j : Nat} (t : Bytes n) (v : Byte) (h : i ≠ j) : rd (wr t i v) j = rd t j := by
  simp [rd_wr, h]

theorem rd_ofFn {n i : Nat} (f : Fin n → Byte) (h : i < n) : rd (Vector.ofFn f) i = f ⟨i, h⟩ := by
  simp [rd, h]

/-- Two arrays that read alike at every index are equal. -/
theorem bytes_ext {n : Nat} {t u : Bytes n} (h : ∀ i, i < n → rd t i = rd u i) : t = u := by
  apply Vector.ext
  intro i hi
  simpa [rd_of_lt _ hi] using h i hi

/-- A loop of one more iteration, taken from its end. -/
theorem forUp_succ_last {α : Type} (body : Nat → α → α) (n : Nat) :
    ∀ (lo : Nat) (x : α), forUp lo (n + 1) body x = body (lo + n) (forUp lo n body x) := by
  induction n with
  | zero => intro lo x; rfl
  | succ n ih =>
    intro lo x
    rw [forUp, ih (lo + 1) (body lo x), forUp]
    congr 1
    omega

/-- An invariant of a loop. -/
theorem forUp_invariant {α : Type} (P : Nat → α → Prop) (body : Nat → α → α) (lo : Nat)
    (hstep : ∀ i x, P i x → P (i + 1) (body (lo + i) x)) :
    ∀ n x, P 0 x → P n (forUp lo n body x) := by
  intro n
  induction n with
  | zero => intro x h; exact h
  | succ n ih => intro x h; rw [forUp_succ_last]; exact hstep n _ (ih x h)

theorem setWord_rd {n : Nat} (t : Bytes n) (k : Nat) (w : Word) (i : Nat) (h : 4 * k + 3 < n) :
    rd (setWord t k w) i =
      if i = 4 * k then w.extractLsb' 0 8 else if i = 4 * k + 1 then w.extractLsb' 8 8
      else if i = 4 * k + 2 then w.extractLsb' 16 8 else if i = 4 * k + 3 then w.extractLsb' 24 8 else rd t i := by
  simp only [setWord, rd_wr]
  split_ifs <;> first | rfl | omega

/-- R56: packing the four bytes of a word gives the word. -/
theorem append_extract_bytes (w : Word) :
    w.extractLsb' 24 8 ++ w.extractLsb' 16 8 ++ w.extractLsb' 8 8 ++ w.extractLsb' 0 8 = w := by
  apply BitVec.eq_of_getLsbD_eq
  intro i hi
  interval_cases i <;> simp only [BitVec.getLsbD_append, BitVec.getLsbD_extractLsb'] <;> rfl

/-- R30, R56: a word read back from where it was written. -/
theorem packWord_setWord_same {n : Nat} (t : Bytes n) (k : Nat) (w : Word) (h : 4 * k + 3 < n) :
    packWord (setWord t k w) k = w := by
  simpa [packWord, setWord_rd t k w _ h] using append_extract_bytes w

theorem packWord_setWord_other {n : Nat} (t : Bytes n) (k j : Nat) (w : Word) (h : 4 * k + 3 < n) (hkj : k ≠ j) :
    packWord (setWord t k w) j = packWord t j := by
  have e : ∀ b, b < 4 → rd (setWord t k w) (4 * j + b) = rd t (4 * j + b) := by
    intro b hb
    rw [setWord_rd t k w _ h]
    split_ifs <;> first | omega | rfl
  have e0 := e 0 (by omega)
  simp only [Nat.add_zero] at e0
  simp only [packWord, e 3 (by omega), e 2 (by omega), e 1 (by omega), e0]

@[simp] theorem ofBlock_toBlock (l : Lanes) : Lanes.ofBlock l.toBlock = l := rfl

@[simp] theorem toBlock_ofBlock (t : Bytes 8) : (Lanes.ofBlock t).toBlock = t := by
  apply bytes_ext
  intro i hi
  interval_cases i <;> rfl

end Sys2Proof.Machine
end

