-- ==== Sys2Proof/Laws/State.lean ====
section
/-! SUPPORT. What each named update of the state does to each field, by rfl; and what raising an error and completing answer. -/

namespace Sys2Proof.Machine

@[simp] theorem State.accept_busy (v : Word) (s : State) : (s.accept v).busy = true := rfl
@[simp] theorem State.accept_tblValid (v : Word) (s : State) : (s.accept v).tblValid = s.tblValid := rfl
@[simp] theorem State.accept_schedValid (v : Word) (s : State) : (s.accept v).schedValid = s.schedValid := rfl
@[simp] theorem State.accept_err (v : Word) (s : State) : (s.accept v).err = .ok := rfl
@[simp] theorem State.accept_rounds (v : Word) (s : State) : (s.accept v).rounds = s.rounds := rfl
@[simp] theorem State.accept_key (v : Word) (s : State) : (s.accept v).key = s.key := rfl
@[simp] theorem State.accept_din (v : Word) (s : State) : (s.accept v).din = s.din := rfl
@[simp] theorem State.accept_dout (v : Word) (s : State) : (s.accept v).dout = s.dout := rfl
@[simp] theorem State.accept_exp (v : Word) (s : State) : (s.accept v).exp = s.exp := rfl
@[simp] theorem State.accept_log (v : Word) (s : State) : (s.accept v).log = s.log := rfl
@[simp] theorem State.accept_sk (v : Word) (s : State) : (s.accept v).sk = s.sk := rfl
@[simp] theorem State.accept_k1 (v : Word) (s : State) : (s.accept v).k1 = s.k1 := rfl
@[simp] theorem State.accept_k2 (v : Word) (s : State) : (s.accept v).k2 = s.k2 := rfl
@[simp] theorem State.accept_ra (v : Word) (s : State) : (s.accept v).ra = s.ra := rfl
@[simp] theorem State.accept_rb (v : Word) (s : State) : (s.accept v).rb = s.rb := rfl
@[simp] theorem State.accept_lanes (v : Word) (s : State) : (s.accept v).lanes = s.lanes := rfl
@[simp] theorem State.accept_idx (v : Word) (s : State) : (s.accept v).idx = s.idx := rfl
@[simp] theorem State.accept_rc (v : Word) (s : State) : (s.accept v).rc = s.rc := rfl
@[simp] theorem State.accept_eReg (v : Word) (s : State) : (s.accept v).eReg = s.eReg := rfl
@[simp] theorem State.accept_gi (v : Word) (s : State) : (s.accept v).gi = s.gi := rfl
@[simp] theorem State.accept_pend (v : Word) (s : State) : (s.accept v).pend = some v := rfl
@[simp] theorem State.accept_program (v : Word) (s : State) : (s.accept v).program = s.program := rfl
@[simp] theorem State.accept_vars (v : Word) (s : State) : (s.accept v).vars = s.vars := rfl
@[simp] theorem State.accept_schedule (v : Word) (s : State) : (s.accept v).schedule = s.schedule := rfl
@[simp] theorem State.accept_freeCtr (v : Word) (s : State) : (s.accept v).freeCtr = s.freeCtr := rfl

@[simp] theorem State.finish_busy (c : ErrCode) (s : State) : (s.finish c).busy = false := rfl
@[simp] theorem State.finish_tblValid (c : ErrCode) (s : State) : (s.finish c).tblValid = s.tblValid := rfl
@[simp] theorem State.finish_schedValid (c : ErrCode) (s : State) : (s.finish c).schedValid = s.schedValid := rfl
@[simp] theorem State.finish_err (c : ErrCode) (s : State) : (s.finish c).err = c := rfl
@[simp] theorem State.finish_rounds (c : ErrCode) (s : State) : (s.finish c).rounds = s.rounds := rfl
@[simp] theorem State.finish_key (c : ErrCode) (s : State) : (s.finish c).key = s.key := rfl
@[simp] theorem State.finish_din (c : ErrCode) (s : State) : (s.finish c).din = s.din := rfl
@[simp] theorem State.finish_dout (c : ErrCode) (s : State) : (s.finish c).dout = s.dout := rfl
@[simp] theorem State.finish_exp (c : ErrCode) (s : State) : (s.finish c).exp = s.exp := rfl
@[simp] theorem State.finish_log (c : ErrCode) (s : State) : (s.finish c).log = s.log := rfl
@[simp] theorem State.finish_sk (c : ErrCode) (s : State) : (s.finish c).sk = s.sk := rfl
@[simp] theorem State.finish_k1 (c : ErrCode) (s : State) : (s.finish c).k1 = s.k1 := rfl
@[simp] theorem State.finish_k2 (c : ErrCode) (s : State) : (s.finish c).k2 = s.k2 := rfl
@[simp] theorem State.finish_ra (c : ErrCode) (s : State) : (s.finish c).ra = s.ra := rfl
@[simp] theorem State.finish_rb (c : ErrCode) (s : State) : (s.finish c).rb = s.rb := rfl
@[simp] theorem State.finish_lanes (c : ErrCode) (s : State) : (s.finish c).lanes = s.lanes := rfl
@[simp] theorem State.finish_idx (c : ErrCode) (s : State) : (s.finish c).idx = s.idx := rfl
@[simp] theorem State.finish_rc (c : ErrCode) (s : State) : (s.finish c).rc = s.rc := rfl
@[simp] theorem State.finish_eReg (c : ErrCode) (s : State) : (s.finish c).eReg = s.eReg := rfl
@[simp] theorem State.finish_gi (c : ErrCode) (s : State) : (s.finish c).gi = s.gi := rfl
@[simp] theorem State.finish_pend (c : ErrCode) (s : State) : (s.finish c).pend = none := rfl
@[simp] theorem State.finish_program (c : ErrCode) (s : State) : (s.finish c).program = s.program := rfl
@[simp] theorem State.finish_vars (c : ErrCode) (s : State) : (s.finish c).vars = s.vars := rfl
@[simp] theorem State.finish_schedule (c : ErrCode) (s : State) : (s.finish c).schedule = s.schedule := rfl
@[simp] theorem State.finish_freeCtr (c : ErrCode) (s : State) : (s.finish c).freeCtr = s.freeCtr := rfl

@[simp] theorem State.clearKeys_busy (s : State) : (s.clearKeys).busy = s.busy := rfl
@[simp] theorem State.clearKeys_tblValid (s : State) : (s.clearKeys).tblValid = s.tblValid := rfl
@[simp] theorem State.clearKeys_schedValid (s : State) : (s.clearKeys).schedValid = s.schedValid := rfl
@[simp] theorem State.clearKeys_err (s : State) : (s.clearKeys).err = s.err := rfl
@[simp] theorem State.clearKeys_rounds (s : State) : (s.clearKeys).rounds = s.rounds := rfl
@[simp] theorem State.clearKeys_key (s : State) : (s.clearKeys).key = zeros 16 := rfl
@[simp] theorem State.clearKeys_din (s : State) : (s.clearKeys).din = s.din := rfl
@[simp] theorem State.clearKeys_dout (s : State) : (s.clearKeys).dout = s.dout := rfl
@[simp] theorem State.clearKeys_exp (s : State) : (s.clearKeys).exp = s.exp := rfl
@[simp] theorem State.clearKeys_log (s : State) : (s.clearKeys).log = s.log := rfl
@[simp] theorem State.clearKeys_sk (s : State) : (s.clearKeys).sk = s.sk := rfl
@[simp] theorem State.clearKeys_k1 (s : State) : (s.clearKeys).k1 = zeros 8 := rfl
@[simp] theorem State.clearKeys_k2 (s : State) : (s.clearKeys).k2 = zeros 8 := rfl
@[simp] theorem State.clearKeys_ra (s : State) : (s.clearKeys).ra = zeros 9 := rfl
@[simp] theorem State.clearKeys_rb (s : State) : (s.clearKeys).rb = zeros 9 := rfl
@[simp] theorem State.clearKeys_lanes (s : State) : (s.clearKeys).lanes = s.lanes := rfl
@[simp] theorem State.clearKeys_idx (s : State) : (s.clearKeys).idx = s.idx := rfl
@[simp] theorem State.clearKeys_rc (s : State) : (s.clearKeys).rc = s.rc := rfl
@[simp] theorem State.clearKeys_eReg (s : State) : (s.clearKeys).eReg = s.eReg := rfl
@[simp] theorem State.clearKeys_gi (s : State) : (s.clearKeys).gi = s.gi := rfl
@[simp] theorem State.clearKeys_pend (s : State) : (s.clearKeys).pend = s.pend := rfl
@[simp] theorem State.clearKeys_program (s : State) : (s.clearKeys).program = s.program := rfl
@[simp] theorem State.clearKeys_vars (s : State) : (s.clearKeys).vars = s.vars := rfl
@[simp] theorem State.clearKeys_schedule (s : State) : (s.clearKeys).schedule = s.schedule := rfl
@[simp] theorem State.clearKeys_freeCtr (s : State) : (s.clearKeys).freeCtr = s.freeCtr := rfl

@[simp] theorem State.dropSchedule_busy (s : State) : (s.dropSchedule).busy = s.busy := rfl
@[simp] theorem State.dropSchedule_tblValid (s : State) : (s.dropSchedule).tblValid = s.tblValid := rfl
@[simp] theorem State.dropSchedule_schedValid (s : State) : (s.dropSchedule).schedValid = false := rfl
@[simp] theorem State.dropSchedule_err (s : State) : (s.dropSchedule).err = s.err := rfl
@[simp] theorem State.dropSchedule_rounds (s : State) : (s.dropSchedule).rounds = 0 := rfl
@[simp] theorem State.dropSchedule_key (s : State) : (s.dropSchedule).key = s.key := rfl
@[simp] theorem State.dropSchedule_din (s : State) : (s.dropSchedule).din = s.din := rfl
@[simp] theorem State.dropSchedule_dout (s : State) : (s.dropSchedule).dout = s.dout := rfl
@[simp] theorem State.dropSchedule_exp (s : State) : (s.dropSchedule).exp = s.exp := rfl
@[simp] theorem State.dropSchedule_log (s : State) : (s.dropSchedule).log = s.log := rfl
@[simp] theorem State.dropSchedule_sk (s : State) : (s.dropSchedule).sk = zeros 216 := rfl
@[simp] theorem State.dropSchedule_k1 (s : State) : (s.dropSchedule).k1 = s.k1 := rfl
@[simp] theorem State.dropSchedule_k2 (s : State) : (s.dropSchedule).k2 = s.k2 := rfl
@[simp] theorem State.dropSchedule_ra (s : State) : (s.dropSchedule).ra = s.ra := rfl
@[simp] theorem State.dropSchedule_rb (s : State) : (s.dropSchedule).rb = s.rb := rfl
@[simp] theorem State.dropSchedule_lanes (s : State) : (s.dropSchedule).lanes = s.lanes := rfl
@[simp] theorem State.dropSchedule_idx (s : State) : (s.dropSchedule).idx = s.idx := rfl
@[simp] theorem State.dropSchedule_rc (s : State) : (s.dropSchedule).rc = s.rc := rfl
@[simp] theorem State.dropSchedule_eReg (s : State) : (s.dropSchedule).eReg = s.eReg := rfl
@[simp] theorem State.dropSchedule_gi (s : State) : (s.dropSchedule).gi = s.gi := rfl
@[simp] theorem State.dropSchedule_pend (s : State) : (s.dropSchedule).pend = s.pend := rfl
@[simp] theorem State.dropSchedule_program (s : State) : (s.dropSchedule).program = s.program := rfl
@[simp] theorem State.dropSchedule_vars (s : State) : (s.dropSchedule).vars = s.vars := rfl
@[simp] theorem State.dropSchedule_schedule (s : State) : (s.dropSchedule).schedule = s.schedule := rfl
@[simp] theorem State.dropSchedule_freeCtr (s : State) : (s.dropSchedule).freeCtr = s.freeCtr := rfl

@[simp] theorem State.leaveDatapath_busy (s : State) : (s.leaveDatapath).busy = s.busy := rfl
@[simp] theorem State.leaveDatapath_tblValid (s : State) : (s.leaveDatapath).tblValid = s.tblValid := rfl
@[simp] theorem State.leaveDatapath_schedValid (s : State) : (s.leaveDatapath).schedValid = s.schedValid := rfl
@[simp] theorem State.leaveDatapath_err (s : State) : (s.leaveDatapath).err = s.err := rfl
@[simp] theorem State.leaveDatapath_rounds (s : State) : (s.leaveDatapath).rounds = s.rounds := rfl
@[simp] theorem State.leaveDatapath_key (s : State) : (s.leaveDatapath).key = s.key := rfl
@[simp] theorem State.leaveDatapath_din (s : State) : (s.leaveDatapath).din = s.din := rfl
@[simp] theorem State.leaveDatapath_dout (s : State) : (s.leaveDatapath).dout = s.dout := rfl
@[simp] theorem State.leaveDatapath_exp (s : State) : (s.leaveDatapath).exp = s.exp := rfl
@[simp] theorem State.leaveDatapath_log (s : State) : (s.leaveDatapath).log = s.log := rfl
@[simp] theorem State.leaveDatapath_sk (s : State) : (s.leaveDatapath).sk = s.sk := rfl
@[simp] theorem State.leaveDatapath_k1 (s : State) : (s.leaveDatapath).k1 = s.k1 := rfl
@[simp] theorem State.leaveDatapath_k2 (s : State) : (s.leaveDatapath).k2 = s.k2 := rfl
@[simp] theorem State.leaveDatapath_ra (s : State) : (s.leaveDatapath).ra = s.ra := rfl
@[simp] theorem State.leaveDatapath_rb (s : State) : (s.leaveDatapath).rb = s.rb := rfl
@[simp] theorem State.leaveDatapath_eReg (s : State) : (s.leaveDatapath).eReg = s.eReg := rfl
@[simp] theorem State.leaveDatapath_gi (s : State) : (s.leaveDatapath).gi = s.gi := rfl
@[simp] theorem State.leaveDatapath_pend (s : State) : (s.leaveDatapath).pend = s.pend := rfl
@[simp] theorem State.leaveDatapath_program (s : State) : (s.leaveDatapath).program = s.program := rfl
@[simp] theorem State.leaveDatapath_vars (s : State) : (s.leaveDatapath).vars = s.vars := rfl
@[simp] theorem State.leaveDatapath_schedule (s : State) : (s.leaveDatapath).schedule = s.schedule := rfl
@[simp] theorem State.leaveDatapath_freeCtr (s : State) : (s.leaveDatapath).freeCtr = s.freeCtr + 10 := rfl

@[simp] theorem State.leaveGenerator_busy (s : State) : (s.leaveGenerator).busy = s.busy := rfl
@[simp] theorem State.leaveGenerator_tblValid (s : State) : (s.leaveGenerator).tblValid = s.tblValid := rfl
@[simp] theorem State.leaveGenerator_schedValid (s : State) : (s.leaveGenerator).schedValid = s.schedValid := rfl
@[simp] theorem State.leaveGenerator_err (s : State) : (s.leaveGenerator).err = s.err := rfl
@[simp] theorem State.leaveGenerator_rounds (s : State) : (s.leaveGenerator).rounds = s.rounds := rfl
@[simp] theorem State.leaveGenerator_key (s : State) : (s.leaveGenerator).key = s.key := rfl
@[simp] theorem State.leaveGenerator_din (s : State) : (s.leaveGenerator).din = s.din := rfl
@[simp] theorem State.leaveGenerator_dout (s : State) : (s.leaveGenerator).dout = s.dout := rfl
@[simp] theorem State.leaveGenerator_exp (s : State) : (s.leaveGenerator).exp = s.exp := rfl
@[simp] theorem State.leaveGenerator_log (s : State) : (s.leaveGenerator).log = s.log := rfl
@[simp] theorem State.leaveGenerator_sk (s : State) : (s.leaveGenerator).sk = s.sk := rfl
@[simp] theorem State.leaveGenerator_k1 (s : State) : (s.leaveGenerator).k1 = s.k1 := rfl
@[simp] theorem State.leaveGenerator_k2 (s : State) : (s.leaveGenerator).k2 = s.k2 := rfl
@[simp] theorem State.leaveGenerator_ra (s : State) : (s.leaveGenerator).ra = s.ra := rfl
@[simp] theorem State.leaveGenerator_rb (s : State) : (s.leaveGenerator).rb = s.rb := rfl
@[simp] theorem State.leaveGenerator_lanes (s : State) : (s.leaveGenerator).lanes = s.lanes := rfl
@[simp] theorem State.leaveGenerator_idx (s : State) : (s.leaveGenerator).idx = s.idx := rfl
@[simp] theorem State.leaveGenerator_rc (s : State) : (s.leaveGenerator).rc = s.rc := rfl
@[simp] theorem State.leaveGenerator_pend (s : State) : (s.leaveGenerator).pend = s.pend := rfl
@[simp] theorem State.leaveGenerator_program (s : State) : (s.leaveGenerator).program = s.program := rfl
@[simp] theorem State.leaveGenerator_vars (s : State) : (s.leaveGenerator).vars = s.vars := rfl
@[simp] theorem State.leaveGenerator_schedule (s : State) : (s.leaveGenerator).schedule = s.schedule := rfl
@[simp] theorem State.leaveGenerator_freeCtr (s : State) : (s.leaveGenerator).freeCtr = s.freeCtr + 2 := rfl
@[simp] theorem State.engineReset_busy (s : State) : (s.engineReset).busy = false := rfl
@[simp] theorem State.engineReset_tblValid (s : State) : (s.engineReset).tblValid = false := rfl
@[simp] theorem State.engineReset_schedValid (s : State) : (s.engineReset).schedValid = false := rfl
@[simp] theorem State.engineReset_err (s : State) : (s.engineReset).err = .ok := rfl
@[simp] theorem State.engineReset_rounds (s : State) : (s.engineReset).rounds = 0 := rfl
@[simp] theorem State.engineReset_key (s : State) : (s.engineReset).key = zeros 16 := rfl
@[simp] theorem State.engineReset_din (s : State) : (s.engineReset).din = zeros 8 := rfl
@[simp] theorem State.engineReset_dout (s : State) : (s.engineReset).dout = zeros 8 := rfl
@[simp] theorem State.engineReset_exp (s : State) : (s.engineReset).exp = zeros 256 := rfl
@[simp] theorem State.engineReset_log (s : State) : (s.engineReset).log = zeros 256 := rfl
@[simp] theorem State.engineReset_sk (s : State) : (s.engineReset).sk = zeros 216 := rfl
@[simp] theorem State.engineReset_k1 (s : State) : (s.engineReset).k1 = zeros 8 := rfl
@[simp] theorem State.engineReset_k2 (s : State) : (s.engineReset).k2 = zeros 8 := rfl
@[simp] theorem State.engineReset_ra (s : State) : (s.engineReset).ra = zeros 9 := rfl
@[simp] theorem State.engineReset_rb (s : State) : (s.engineReset).rb = zeros 9 := rfl
@[simp] theorem State.engineReset_lanes (s : State) : (s.engineReset).lanes = ⟨0, 0, 0, 0, 0, 0, 0, 0⟩ := rfl
@[simp] theorem State.engineReset_idx (s : State) : (s.engineReset).idx = 0 := rfl
@[simp] theorem State.engineReset_rc (s : State) : (s.engineReset).rc = 0 := rfl
@[simp] theorem State.engineReset_eReg (s : State) : (s.engineReset).eReg = 0 := rfl
@[simp] theorem State.engineReset_gi (s : State) : (s.engineReset).gi = 0 := rfl
@[simp] theorem State.engineReset_pend (s : State) : (s.engineReset).pend = none := rfl
@[simp] theorem State.engineReset_program (s : State) : (s.engineReset).program = s.program := rfl
@[simp] theorem State.engineReset_vars (s : State) : (s.engineReset).vars = s.vars := rfl
@[simp] theorem State.engineReset_schedule (s : State) : (s.engineReset).schedule = s.schedule := rfl
@[simp] theorem State.engineReset_freeCtr (s : State) : (s.engineReset).freeCtr = s.freeCtr := rfl

theorem complete_eq (s : State) : s.complete = .next (s.finish .ok) := rfl

theorem raiseErr_eq (c : ErrCode) (s : State) : s.raiseErr c = .next (s.finish c) := rfl

@[simp] theorem drawWord_snd (s : State) : s.drawWord.2 = { s with freeCtr := s.freeCtr + 1 } := rfl

end Sys2Proof.Machine
end

