-- ==== Sys2Proof/Laws/HostPort.lean ====
section
/-! SUPPORT. The host port said once: what a read can change, what a write can change, what a host turn can change. -/

namespace Sys2Proof.Machine

/-- R61: a read changes nothing but how many free values have been drawn. -/
theorem hostRead_state (addr : Addr) (s : State) : ∃ n, (hostRead addr s).2 = { s with freeCtr := n } := by
  unfold hostRead
  split <;> first
    | exact ⟨s.freeCtr, rfl⟩
    | (unfold readWhenIdle; split <;> first | exact ⟨s.freeCtr + 1, rfl⟩ | exact ⟨s.freeCtr, rfl⟩)

/-- R243: a write while BUSY = 1 is dropped. -/
theorem hostWrite_busy {s : State} (addr : Addr) (v : Word) (h : s.busy = true) : hostWrite addr v s = s := by
  simp [hostWrite, h]

/-- R55: everything a write can do. -/
theorem hostWrite_cases (addr : Addr) (v : Word) (s : State) :
    hostWrite addr v s = s ∨
    (s.busy = false ∧ region addr = .cmd ∧ hostWrite addr v s = s.accept v) ∨
    (s.busy = false ∧ ∃ n, region addr = .key n ∧ hostWrite addr v s = { s with key := setWord s.key n v }) ∨
    (s.busy = false ∧ ∃ n, region addr = .din n ∧ hostWrite addr v s = { s with din := setWord s.din n v }) := by
  unfold hostWrite
  cases hb : s.busy
  · cases hr : region addr <;> simp
  · simp

/-- R51: the word index a region carries stays inside its array. -/
theorem regionAt_key {off n : Nat} (h : regionAt off = .key n) : n < 4 := by
  unfold regionAt at h
  split_ifs at h
  simp only [Region.key.injEq] at h
  omega

theorem regionAt_din {off n : Nat} (h : regionAt off = .din n) : n < 2 := by
  unfold regionAt at h
  split_ifs at h
  simp only [Region.din.injEq] at h
  omega

/-- R53: the decoded word offset, by arithmetic. -/
theorem wordOffset_eq (addr : Addr) : wordOffset addr = 4 * (addr.toNat / 4) := by
  have := addr.isLt
  simp only [wordOffset, BitVec.extractLsb'_toNat, Nat.shiftRight_eq_div_pow]
  omega

theorem regionAt_keyWord {n : Nat} (h : n < 4) : regionAt (0x010 + 4 * n) = .key n := by interval_cases n <;> rfl

theorem regionAt_dinWord {n : Nat} (h : n < 2) : regionAt (0x020 + 4 * n) = .din n := by interval_cases n <;> rfl

theorem regionAt_doutWord {n : Nat} (h : n < 2) : regionAt (0x028 + 4 * n) = .dout n := by interval_cases n <;> rfl

theorem regionAt_expWord {n : Nat} (h : n < 64) : regionAt (0x100 + 4 * n) = .expWin n := by
  simp only [regionAt]
  split_ifs <;> first | omega | (congr 1; omega)

theorem regionAt_logWord {n : Nat} (h : n < 64) : regionAt (0x200 + 4 * n) = .logWin n := by
  simp only [regionAt]
  split_ifs <;> first | omega | (congr 1; omega)

theorem regionAt_skWord {n : Nat} (h : n < 54) : regionAt (0x300 + 4 * n) = .skWin n := by
  simp only [regionAt]
  split_ifs <;> first | omega | (congr 1; omega)

/-- Everything a host turn can do. -/
theorem hostTurn_cases {s t : State} (h : hostTurn s = .next t) :
    (s.program = [] ∧ t = s) ∨
    ∃ op rest, s.program = op :: rest ∧
      ((∃ off v w, op = .wr off v ∧ evalHostVal s.vars v = some w ∧ t = { hostWrite off w s with program := rest }) ∨
       (∃ off x n, op = .rd off x ∧
          t = { s with freeCtr := n, vars := assignName x (hostRead off s).1 s.vars, program := rest }) ∨
       (∃ x, op = .poll x ∧
          t = { s with
            vars := assignName x (statusWord s) s.vars
            program := if (statusWord s).getLsbD 0 then .poll x :: rest else rest })) := by
  unfold hostTurn at h
  split at h
  · next hp => exact .inl ⟨hp, by simpa using h.symm⟩
  · next op rest hp =>
    refine .inr ⟨op, rest, hp, ?_⟩
    cases op with
    | wr off v =>
      simp only [runHostOp] at h
      split at h
      · next w hw => exact .inl ⟨off, v, w, rfl, hw, by simpa using h.symm⟩
      · simp at h
    | rd off x =>
      obtain ⟨n, hn⟩ := hostRead_state off s
      simp only [runHostOp, hn, Host.Outcome.next.injEq] at h
      exact .inr (.inl ⟨off, x, n, rfl, h.symm⟩)
    | poll x =>
      have e : hostRead 0x004 s = (statusWord s, s) := rfl
      simp only [runHostOp, e, Host.Outcome.next.injEq] at h
      exact .inr (.inr ⟨x, rfl, h.symm⟩)
    | narrow width off => simp [runHostOp] at h

end Sys2Proof.Machine
end

