-- ==== Sys2Proof/Laws/Step.lean ====
section
/-! SUPPORT. What taking a turn and placing a command do to each field; the step's one inversion lemma; the engine's turn; a placed
command is the next thing that runs. -/

namespace Sys2Proof.Machine

@[simp] theorem State.takeTurn_busy (s : State) : (s.takeTurn).busy = s.busy := rfl
@[simp] theorem State.takeTurn_tblValid (s : State) : (s.takeTurn).tblValid = s.tblValid := rfl
@[simp] theorem State.takeTurn_schedValid (s : State) : (s.takeTurn).schedValid = s.schedValid := rfl
@[simp] theorem State.takeTurn_err (s : State) : (s.takeTurn).err = s.err := rfl
@[simp] theorem State.takeTurn_rounds (s : State) : (s.takeTurn).rounds = s.rounds := rfl
@[simp] theorem State.takeTurn_key (s : State) : (s.takeTurn).key = s.key := rfl
@[simp] theorem State.takeTurn_din (s : State) : (s.takeTurn).din = s.din := rfl
@[simp] theorem State.takeTurn_dout (s : State) : (s.takeTurn).dout = s.dout := rfl
@[simp] theorem State.takeTurn_exp (s : State) : (s.takeTurn).exp = s.exp := rfl
@[simp] theorem State.takeTurn_log (s : State) : (s.takeTurn).log = s.log := rfl
@[simp] theorem State.takeTurn_sk (s : State) : (s.takeTurn).sk = s.sk := rfl
@[simp] theorem State.takeTurn_k1 (s : State) : (s.takeTurn).k1 = s.k1 := rfl
@[simp] theorem State.takeTurn_k2 (s : State) : (s.takeTurn).k2 = s.k2 := rfl
@[simp] theorem State.takeTurn_ra (s : State) : (s.takeTurn).ra = s.ra := rfl
@[simp] theorem State.takeTurn_rb (s : State) : (s.takeTurn).rb = s.rb := rfl
@[simp] theorem State.takeTurn_lanes (s : State) : (s.takeTurn).lanes = s.lanes := rfl
@[simp] theorem State.takeTurn_idx (s : State) : (s.takeTurn).idx = s.idx := rfl
@[simp] theorem State.takeTurn_rc (s : State) : (s.takeTurn).rc = s.rc := rfl
@[simp] theorem State.takeTurn_eReg (s : State) : (s.takeTurn).eReg = s.eReg := rfl
@[simp] theorem State.takeTurn_gi (s : State) : (s.takeTurn).gi = s.gi := rfl
@[simp] theorem State.takeTurn_pend (s : State) : (s.takeTurn).pend = s.pend := rfl
@[simp] theorem State.takeTurn_program (s : State) : (s.takeTurn).program = s.program := rfl
@[simp] theorem State.takeTurn_vars (s : State) : (s.takeTurn).vars = s.vars := rfl
@[simp] theorem State.takeTurn_schedule (s : State) : (s.takeTurn).schedule = s.schedule.tail := rfl
@[simp] theorem State.takeTurn_freeCtr (s : State) : (s.takeTurn).freeCtr = s.freeCtr := rfl

@[simp] theorem State.placeCommand_busy (w : Word) (s : State) : (s.placeCommand w).busy = true := rfl
@[simp] theorem State.placeCommand_tblValid (w : Word) (s : State) : (s.placeCommand w).tblValid = s.tblValid := rfl
@[simp] theorem State.placeCommand_schedValid (w : Word) (s : State) : (s.placeCommand w).schedValid = s.schedValid := rfl
@[simp] theorem State.placeCommand_err (w : Word) (s : State) : (s.placeCommand w).err = .ok := rfl
@[simp] theorem State.placeCommand_rounds (w : Word) (s : State) : (s.placeCommand w).rounds = s.rounds := rfl
@[simp] theorem State.placeCommand_key (w : Word) (s : State) : (s.placeCommand w).key = s.key := rfl
@[simp] theorem State.placeCommand_din (w : Word) (s : State) : (s.placeCommand w).din = s.din := rfl
@[simp] theorem State.placeCommand_dout (w : Word) (s : State) : (s.placeCommand w).dout = s.dout := rfl
@[simp] theorem State.placeCommand_exp (w : Word) (s : State) : (s.placeCommand w).exp = s.exp := rfl
@[simp] theorem State.placeCommand_log (w : Word) (s : State) : (s.placeCommand w).log = s.log := rfl
@[simp] theorem State.placeCommand_sk (w : Word) (s : State) : (s.placeCommand w).sk = s.sk := rfl
@[simp] theorem State.placeCommand_k1 (w : Word) (s : State) : (s.placeCommand w).k1 = s.k1 := rfl
@[simp] theorem State.placeCommand_k2 (w : Word) (s : State) : (s.placeCommand w).k2 = s.k2 := rfl
@[simp] theorem State.placeCommand_ra (w : Word) (s : State) : (s.placeCommand w).ra = s.ra := rfl
@[simp] theorem State.placeCommand_rb (w : Word) (s : State) : (s.placeCommand w).rb = s.rb := rfl
@[simp] theorem State.placeCommand_lanes (w : Word) (s : State) : (s.placeCommand w).lanes = s.lanes := rfl
@[simp] theorem State.placeCommand_idx (w : Word) (s : State) : (s.placeCommand w).idx = s.idx := rfl
@[simp] theorem State.placeCommand_rc (w : Word) (s : State) : (s.placeCommand w).rc = s.rc := rfl
@[simp] theorem State.placeCommand_eReg (w : Word) (s : State) : (s.placeCommand w).eReg = s.eReg := rfl
@[simp] theorem State.placeCommand_gi (w : Word) (s : State) : (s.placeCommand w).gi = s.gi := rfl
@[simp] theorem State.placeCommand_pend (w : Word) (s : State) : (s.placeCommand w).pend = some w := rfl
@[simp] theorem State.placeCommand_program (w : Word) (s : State) : (s.placeCommand w).program = s.program := rfl
@[simp] theorem State.placeCommand_vars (w : Word) (s : State) : (s.placeCommand w).vars = s.vars := rfl
@[simp] theorem State.placeCommand_schedule (w : Word) (s : State) : (s.placeCommand w).schedule = .engine :: s.schedule := rfl
@[simp] theorem State.placeCommand_freeCtr (w : Word) (s : State) : (s.placeCommand w).freeCtr = s.freeCtr := rfl

theorem takeTurn_placeCommand (w : Word) (s : State) : (s.placeCommand w).takeTurn = s.accept w := rfl

theorem engineTurn_idle {s : State} (h : s.busy = false) : engineTurn s = .next s := by simp [engineTurn, h]

theorem engineTurn_busy {s : State} {w : Word} (h : s.busy = true) (hp : s.pend = some w) :
    engineTurn s = completion w s := by simp [engineTurn, h, hp]

theorem completion_ok {w : Word} {i : Instr} (s : State) (h : decode w = .ok i) : completion w s = exec i s := by
  simp [completion, h]

theorem completion_error {w : Word} {e : DecodeError} (s : State) (h : decode w = .error e) :
    completion w s = .next (s.finish .illegalCmd) := by
  simp [completion, h, State.raiseErr]

/-- A placed command is what the very next step completes. -/
theorem step_placeCommand (w : Word) (s : State) : step (s.placeCommand w) = completion w (s.accept w) := rfl

/-- Everything a step can do: a host turn, an idle or completing engine turn, a fault-free reset. -/
theorem step_cases {s t : State} (h : step s = .next t) :
    (nextTurn s = .host ∧ hostTurn s.takeTurn = .next t) ∨
    (nextTurn s = .engine ∧ s.busy = false ∧ t = s.takeTurn) ∨
    (nextTurn s = .engine ∧ s.busy = true ∧ ∃ w, s.pend = some w ∧ completion w s.takeTurn = .next t) ∨
    (nextTurn s = .reset ∧ t = s.takeTurn.engineReset) := by
  cases hn : nextTurn s with
  | host => exact .inl ⟨rfl, by simpa [step, turn, hn] using h⟩
  | reset => exact .inr (.inr (.inr ⟨rfl, by simpa [step, turn, hn, resetTurn] using h.symm⟩))
  | engine =>
    cases hb : s.busy with
    | false => exact .inr (.inl ⟨rfl, rfl, by simpa [step, turn, hn, engineTurn, hb] using h.symm⟩)
    | true =>
      cases hp : s.pend with
      | none => simp [step, turn, hn, engineTurn, hb, hp] at h
      | some w => exact .inr (.inr (.inl ⟨rfl, rfl, w, rfl, by simpa [step, turn, hn, engineTurn, hb, hp] using h⟩))

end Sys2Proof.Machine
end

