-- ==== Sys2Proof/Laws/Commands.lean ====
section
/-! SUPPORT. The commands said once: each outcome of each meaning, what every completion leaves alone, the checks of KEYEXP, one more
round of a round loop, the cleared tail, and the frame of a host turn. -/

namespace Sys2Proof.Machine

/-- TBLGEN has one outcome (R105). -/
theorem exec_tblgen (s : State) :
    exec .tblgen s = .next (({ s.leaveGenerator with
      exp := (buildTables s.exp s.log).exp, log := (buildTables s.exp s.log).log, tblValid := true }).finish .ok) := rfl

theorem exec_keyexp_error {klen : Nat} {rounds : Option Nat} {s : State} {c : ErrCode}
    (h : keyexpChecks s.tblValid klen rounds = .error c) :
    exec (.keyexp klen rounds) s = .next (s.dropSchedule.clearKeys.finish c) := by
  simp only [exec, execKeyexp, h]; rfl

theorem exec_keyexp_ok {klen : Nat} {rounds : Option Nat} {s : State} {r : Nat}
    (h : keyexpChecks s.tblValid klen rounds = .ok r) :
    exec (.keyexp klen rounds) s = .next (({ s.clearKeys with
      sk := expandKey s.exp s.key klen r s.sk, rounds := BitVec.ofNat 4 r, schedValid := true }).finish .ok) := by
  simp only [exec, execKeyexp, h]; rfl

theorem exec_enc_noSchedule {s : State} (h : s.schedValid = false) : exec .enc s = .next (s.finish .noSchedule) := by
  simp [exec, execEnc, h, State.raiseErr]

theorem exec_dec_noSchedule {s : State} (h : s.schedValid = false) : exec .dec s = .next (s.finish .noSchedule) := by
  simp [exec, execDec, h, State.raiseErr]

theorem exec_enc_ok {s : State} (h : s.schedValid = true) (hr : s.rounds.toNat ≤ 13) :
    exec .enc s = .next (({ s.leaveDatapath with
      dout := encryptBlock s.exp s.log s.sk s.rounds.toNat s.din }).finish .ok) := by
  have hr' : ¬ Config.maxRounds < s.rounds.toNat := by simp only [Config.maxRounds]; omega
  simp only [exec, execEnc, h]
  rw [if_neg (by simp), if_neg hr']
  rfl

theorem exec_dec_ok {s : State} (h : s.schedValid = true) (hr : s.rounds.toNat ≤ 13) :
    exec .dec s = .next (({ s.leaveDatapath with
      dout := decryptBlock s.exp s.log s.sk s.rounds.toNat s.din }).finish .ok) := by
  have hr' : ¬ Config.maxRounds < s.rounds.toNat := by simp only [Config.maxRounds]; omega
  simp only [exec, execDec, h]
  rw [if_neg (by simp), if_neg hr']
  rfl

/-- What every completion leaves: PEND empty, BUSY 0, and the host's side, the schedule and DIN untouched (R242, R37). -/
theorem exec_frame {i : Instr} {s t : State} (h : exec i s = .next t) :
    t.pend = none ∧ t.busy = false ∧ t.program = s.program ∧ t.vars = s.vars ∧ t.schedule = s.schedule ∧ t.din = s.din := by
  cases i with
  | tblgen =>
    simp only [exec_tblgen, Host.Outcome.next.injEq] at h
    subst h
    simp
  | keyexp klen rounds =>
    cases hc : keyexpChecks s.tblValid klen rounds with
    | error c =>
      rw [exec_keyexp_error hc, Host.Outcome.next.injEq] at h
      subst h
      simp
    | ok r =>
      rw [exec_keyexp_ok hc, Host.Outcome.next.injEq] at h
      subst h
      simp
  | enc =>
    simp only [exec, execEnc] at h
    split_ifs at h <;>
    · simp only [raiseErr_eq, complete_eq, Host.Outcome.next.injEq] at h
      subst h
      simp
  | dec =>
    simp only [exec, execDec] at h
    split_ifs at h <;>
    · simp only [raiseErr_eq, complete_eq, Host.Outcome.next.injEq] at h
      subst h
      simp

/-- A command faults nowhere but where ENC and DEC read a reserved ROUNDS. -/
theorem exec_answers (i : Instr) (s : State) (hr : s.rounds.toNat ≤ 13) : ∃ t, exec i s = .next t := by
  cases i with
  | tblgen => exact ⟨_, exec_tblgen s⟩
  | keyexp klen rounds =>
    cases hc : keyexpChecks s.tblValid klen rounds with
    | error c => exact ⟨_, exec_keyexp_error hc⟩
    | ok r => exact ⟨_, exec_keyexp_ok hc⟩
  | enc =>
    cases hs : s.schedValid with
    | false => exact ⟨_, exec_enc_noSchedule hs⟩
    | true => exact ⟨_, exec_enc_ok hs hr⟩
  | dec =>
    cases hs : s.schedValid with
    | false => exact ⟨_, exec_dec_noSchedule hs⟩
    | true => exact ⟨_, exec_dec_ok hs hr⟩

/-- Everything a completion can be: a command's meaning, or an illegal word's ILLEGAL_CMD. -/
theorem completion_cases {w : Word} {s t : State} (h : completion w s = .next t) :
    (∃ i, decode w = .ok i ∧ exec i s = .next t) ∨ ((∃ e, decode w = .error e) ∧ t = s.finish .illegalCmd) := by
  cases hd : decode w with
  | ok i => exact .inl ⟨i, rfl, by rwa [completion_ok s hd] at h⟩
  | error e =>
    rw [completion_error s hd, Host.Outcome.next.injEq] at h
    exact .inr ⟨⟨e, rfl⟩, h.symm⟩

/-- The checks of KEYEXP pass only with tables, and with a round count in [1, 13] (R121). -/
theorem keyexpChecks_ok {tblValid : Bool} {klen : Nat} {rounds : Option Nat} {r : Nat}
    (h : keyexpChecks tblValid klen rounds = .ok r) : tblValid = true ∧ 1 ≤ r ∧ r ≤ 13 := by
  cases tblValid with
  | false => simp [keyexpChecks] at h
  | true =>
    refine ⟨rfl, ?_⟩
    unfold keyexpChecks resolveRounds at h
    cases rounds with
    | none =>
      simp only [Config.defaultRoundsShort, Config.defaultRoundsLong] at h
      split_ifs at h <;> simp at h <;> omega
    | some rreq =>
      simp only [Config.maxRounds] at h
      split_ifs at h <;> simp at h <;> omega

/-- R155: one more round. -/
theorem encRounds_succ (exp log : Bytes 256) (sk : Bytes 216) (r : Nat) (p : Datapath) :
    encRounds exp log sk (r + 1) p = encRound exp log sk (encRounds exp log sk r p) := forUp_succ_last _ _ _ _

/-- R183: one more iteration. -/
theorem decRounds_succ (exp log : Bytes 256) (sk : Bytes 216) (r : Nat) (p : Datapath) :
    decRounds exp log sk (r + 1) p = decRound exp log sk (decRounds exp log sk r p) := forUp_succ_last _ _ _ _

/-- Clearing a run of entries. -/
theorem rd_clearRun {m : Nat} (lo : Nat) (t : Bytes m) (j : Nat) :
    ∀ n, rd (forUp lo n (fun i u => wr u i 0) t) j = if lo ≤ j ∧ j < lo + n then 0 else rd t j := by
  intro n
  induction n with
  | zero => rw [if_neg (by omega)]; rfl
  | succ n ih =>
    rw [forUp_succ_last, rd_wr, ih]
    by_cases hj : lo + n = j
    · by_cases hm : lo + n < m
      · rw [if_pos ⟨hj, hm⟩, if_pos (by omega)]
      · rw [if_neg (by omega), if_neg (by omega), if_pos (by omega), rd_of_le t (by omega)]
    · rw [if_neg (fun h => hj h.1)]
      split_ifs <;> first | rfl | omega

/-- R126: from SK_LEN(R) on the store is 0, and before it unchanged. -/
theorem rd_clearTail (r : Nat) (sk : Bytes 216) (j : Nat) :
    rd (clearTail r sk) j = if Config.skLen r ≤ j then 0 else rd sk j := by
  rw [clearTail, rd_clearRun]
  by_cases h1 : Config.skLen r ≤ j
  · by_cases h2 : j < 216
    · rw [if_pos ⟨h1, by simp only [Config.skMax]; omega⟩, if_pos h1]
    · rw [if_neg (by simp only [Config.skMax] at *; omega), if_pos h1, rd_of_le sk (by omega)]
  · rw [if_neg (fun h => h1 h.1), if_neg h1]

/-- R126: a schedule is 0 beyond its length. -/
theorem rd_expandKey_tail (exp : Bytes 256) (key : Bytes 16) (klen r : Nat) (sk : Bytes 216) (j : Nat)
    (h : Config.skLen r ≤ j) : rd (expandKey exp key klen r sk) j = 0 := by
  rw [expandKey, rd_clearTail, if_pos h]

/-- The frame of a host turn: while BUSY = 1 it touches no engine state; while BUSY = 0 at most KEY, DIN, or an acceptance. -/
theorem hostTurn_frame {s t : State} (h : hostTurn s = .next t) :
    ∃ key din pend err busy program vars n,
      t = { s with
        key := key, din := din, pend := pend, err := err, busy := busy
        program := program, vars := vars, freeCtr := n } ∧
      (s.busy = true → key = s.key ∧ din = s.din ∧ pend = s.pend ∧ err = s.err ∧ busy = s.busy) ∧
      (busy = s.busy ∧ pend = s.pend ∧ err = s.err ∨
        s.busy = false ∧ busy = true ∧ err = .ok ∧
          ∃ off v rest w, s.program = .wr off v :: rest ∧ region off = .cmd ∧ pend = some w) ∧
      (vars = s.vars ∨ ∃ x w, vars = assignName x w s.vars) := by
  rcases hostTurn_cases h with ⟨_, rfl⟩ | ⟨op, rest, hp, ⟨off, v, w, rfl, _, rfl⟩ | ⟨off, x, n, rfl, rfl⟩ | ⟨x, rfl, rfl⟩⟩
  · exact ⟨t.key, t.din, t.pend, t.err, t.busy, t.program, t.vars, t.freeCtr, rfl, by simp, .inl ⟨rfl, rfl, rfl⟩, .inl rfl⟩
  · cases hb : s.busy with
    | true =>
      refine ⟨s.key, s.din, s.pend, s.err, true, rest, s.vars, s.freeCtr, ?_, by simp, .inl ⟨rfl, rfl, rfl⟩, .inl rfl⟩
      rw [hostWrite_busy off w hb, ← hb]
    | false =>
      rcases hostWrite_cases off w s with e | ⟨_, hr, e⟩ | ⟨_, n, _, e⟩ | ⟨_, n, _, e⟩
      · exact ⟨s.key, s.din, s.pend, s.err, false, rest, s.vars, s.freeCtr, by rw [e, ← hb], by simp, .inl ⟨rfl, rfl, rfl⟩, .inl rfl⟩
      · exact ⟨s.key, s.din, some w, .ok, true, rest, s.vars, s.freeCtr, by rw [e]; rfl, by simp,
          .inr ⟨rfl, rfl, rfl, off, v, rest, w, hp, hr, rfl⟩, .inl rfl⟩
      · exact ⟨setWord s.key n w, s.din, s.pend, s.err, false, rest, s.vars, s.freeCtr, by rw [e, ← hb], by simp, .inl ⟨rfl, rfl, rfl⟩, .inl rfl⟩
      · exact ⟨s.key, setWord s.din n w, s.pend, s.err, false, rest, s.vars, s.freeCtr, by rw [e, ← hb], by simp, .inl ⟨rfl, rfl, rfl⟩, .inl rfl⟩
  · exact ⟨s.key, s.din, s.pend, s.err, s.busy, _, _, _, rfl, by simp, .inl ⟨rfl, rfl, rfl⟩, .inr ⟨_, _, rfl⟩⟩
  · exact ⟨s.key, s.din, s.pend, s.err, s.busy, _, _, s.freeCtr, rfl, by simp, .inl ⟨rfl, rfl, rfl⟩, .inr ⟨_, _, rfl⟩⟩

/-- Assigning a name adds no other name. -/
theorem mem_names_assignName {x y : HostName} {w : Word} {vars : List (HostName × Word)}
    (h : y ∈ (assignName x w vars).map Prod.fst) : y = x ∨ y ∈ vars.map Prod.fst := by
  induction vars with
  | nil => simpa [assignName] using h
  | cons p vars ih =>
    obtain ⟨z, u⟩ := p
    simp only [assignName] at h
    split_ifs at h with h1 h2
    · simpa using h
    · subst h2
      simpa using h
    · simp only [List.map_cons, List.mem_cons] at h ⊢
      rcases h with h | h
      · exact .inr (.inl h)
      · rcases ih h with h | h
        · exact .inl h
        · exact .inr (.inr h)

/-- Assigning a name keeps the names rising. -/
theorem names_rise_assignName (x : HostName) (w : Word) (vars : List (HostName × Word))
    (h : (vars.map Prod.fst).Pairwise (· < ·)) : ((assignName x w vars).map Prod.fst).Pairwise (· < ·) := by
  induction vars with
  | nil => simp [assignName]
  | cons p vars ih =>
    obtain ⟨y, u⟩ := p
    simp only [List.map_cons, List.pairwise_cons] at h
    simp only [assignName]
    split_ifs with h1 h2
    · simp only [List.map_cons, List.pairwise_cons, List.mem_cons]
      refine ⟨?_, h⟩
      rintro z (rfl | hz)
      · exact h1
      · exact lt_trans h1 (h.1 z hz)
    · subst h2
      simpa using h
    · simp only [List.map_cons, List.pairwise_cons]
      refine ⟨fun z hz => ?_, ih h.2⟩
      rcases mem_names_assignName hz with rfl | hz
      · exact Nat.lt_of_le_of_ne (Nat.le_of_not_lt h1) (Ne.symm h2)
      · exact h.1 z hz

/-- The value just assigned to a name. -/
theorem lookupName_assignName (x : HostName) (w : Word) (vars : List (HostName × Word)) :
    lookupName x (assignName x w vars) = some w := by
  induction vars with
  | nil => simp [assignName, lookupName]
  | cons p vars ih =>
    obtain ⟨y, u⟩ := p
    simp only [assignName]
    split_ifs with h1 h2
    · simp [lookupName]
    · simp [lookupName]
    · simp [lookupName, h2, ih]

end Sys2Proof.Machine
end

