-- ==== Sys2Proof/Laws/HostProgram.lean ====
section
/-! SUPPORT. Host programs that run: what keeps `programRuns`, what it gives for one host turn, and the host's names under assignment. -/

namespace Sys2Proof.Machine

/-- Another name's value survives an assignment. -/
theorem lookupName_assignName_other {x y : HostName} (w : Word) (vars : List (HostName × Word)) (h : y ≠ x) :
    lookupName y (assignName x w vars) = lookupName y vars := by
  induction vars with
  | nil => simp [assignName, lookupName, h]
  | cons p vars ih =>
    obtain ⟨z, u⟩ := p
    simp only [assignName]
    split_ifs with h1 h2
    · simp [lookupName, h]
    · subst h2
      simp [lookupName, h]
    · simp [lookupName, ih]

/-- A name has a value exactly where the list holds it. -/
theorem lookupName_isSome {x : HostName} {vars : List (HostName × Word)} :
    (lookupName x vars).isSome = true ↔ x ∈ vars.map Prod.fst := by
  induction vars with
  | nil => simp [lookupName]
  | cons p vars ih =>
    obtain ⟨z, u⟩ := p
    by_cases h : x = z
    · simp [lookupName, h]
    · simp [lookupName, h, ih]

/-- Assigning a name loses none. -/
theorem names_sub_assignName (x : HostName) (w : Word) (vars : List (HostName × Word)) :
    x :: vars.map Prod.fst ⊆ (assignName x w vars).map Prod.fst := by
  intro y hy
  rw [← lookupName_isSome]
  by_cases h : y = x
  · rw [h, lookupName_assignName]
    rfl
  · rw [lookupName_assignName_other w vars h, lookupName_isSome]
    simpa [h] using hy

/-- More names known, no program refused that was not before. -/
theorem programRuns_mono {known known' : List HostName} {p : List HostOp} (hk : known ⊆ known')
    (h : programRuns known p = true) : programRuns known' p = true := by
  induction p generalizing known known' with
  | nil => rfl
  | cons op rest ih =>
    cases op with
    | wr off v =>
      cases v with
      | lit w => exact ih hk h
      | var x =>
        simp only [programRuns, Bool.and_eq_true, decide_eq_true_eq] at h ⊢
        exact ⟨hk h.1, ih hk h.2⟩
    | rd off x => exact ih (List.cons_subset_cons x hk) h
    | poll x => exact ih (List.cons_subset_cons x hk) h
    | narrow width off => simp [programRuns] at h

/-- A host whose program runs takes its turn. -/
theorem hostTurn_answers {s : State} (h : s.hostRuns = true) : ∃ t, hostTurn s = .next t := by
  unfold hostTurn
  split
  · exact ⟨_, rfl⟩
  · next op rest hp =>
    rw [State.hostRuns, hp] at h
    cases op with
    | wr off v =>
      cases v with
      | lit w => exact ⟨_, rfl⟩
      | var x =>
        simp only [programRuns, Bool.and_eq_true, decide_eq_true_eq] at h
        obtain ⟨w, hw⟩ := Option.isSome_iff_exists.mp (lookupName_isSome.mpr h.1)
        simp only [runHostOp, evalHostVal, hw]
        exact ⟨_, rfl⟩
    | rd off x => exact ⟨_, rfl⟩
    | poll x => exact ⟨_, rfl⟩
    | narrow width off => simp [programRuns] at h

/-- A host turn keeps `hostRuns`. -/
theorem hostTurn_hostRuns {s t : State} (h : s.hostRuns = true) (ht : hostTurn s = .next t) : t.hostRuns = true := by
  rcases hostTurn_cases ht with ⟨_, rfl⟩ | ⟨op, rest, hp, ⟨off, v, w, rfl, _, rfl⟩ | ⟨off, x, n, rfl, rfl⟩ | ⟨x, rfl, rfl⟩⟩
  · exact h
  · have hv : (hostWrite off w s).vars = s.vars := by
      rcases hostWrite_cases off w s with e | ⟨_, _, e⟩ | ⟨_, _, _, e⟩ | ⟨_, _, _, e⟩ <;> rw [e]
      rfl
    rw [State.hostRuns, hp] at h
    simp only [State.hostRuns, hv]
    cases v with
    | lit _ => exact h
    | var _ =>
      simp only [programRuns, Bool.and_eq_true] at h
      exact h.2
  · rw [State.hostRuns, hp] at h
    exact programRuns_mono (names_sub_assignName x _ s.vars) h
  · rw [State.hostRuns, hp] at h
    simp only [State.hostRuns]
    split
    · exact programRuns_mono
        (fun y hy => names_sub_assignName x (statusWord s) s.vars (List.mem_cons_of_mem x hy)) h
    · exact programRuns_mono (names_sub_assignName x _ s.vars) h

end Sys2Proof.Machine
end

