-- ==== Sys2Proof/Laws/PerInstr.lean ====
section
/-! SUPPORT. Statements made per instruction: the encoder writes each instruction's opcode into bits 3:0 (R82, R88). -/

namespace Sys2Proof.Laws.EncodeOp

/-- The encoded word carries the instruction's opcode. -/
def Statement (i : Instr) : Prop := fieldOp (encode i) = opcodeOf i

theorem tblgen : Statement .tblgen := rfl

theorem keyexp (klen : Nat) (rounds : Option Nat) : Statement (.keyexp klen rounds) := by
  unfold Statement fieldOp encode opcodeOf
  cases rounds <;>
  · apply BitVec.eq_of_getLsbD_eq
    intro i hi
    interval_cases i <;> simp

theorem enc : Statement .enc := rfl

theorem dec : Statement .dec := rfl

end Sys2Proof.Laws.EncodeOp
end

