-- ==== Sys2Proof/Tests/Slice0.lean ====
section
/-! SUPPORT. Small tests, with expected values written out from the spec (each docstring names the place), and one named witness for
each statement that has hypotheses. -/

namespace Sys2Proof.Tests

open Sys2Proof.Machine Sys2Proof.Spec

/-! ## Helpers -/

/-- The state of a next outcome. -/
def after (o : Host.Outcome State Fault Refusal) : State :=
  match o with
  | .next t => t
  | .fault _ => State.reset
  | .refused _ => State.reset

/-- Bytes as numbers. -/
def numbers {n : Nat} (t : Bytes n) : List Nat := t.toList.map BitVec.toNat

/-- The bytes of a list, in index order, as an array of `n`. -/
def ofList {n : Nat} (l : List Nat) (h : l.length = n := by decide +kernel) : Bytes n := ⟨(l.map (BitVec.ofNat 8)).toArray, by simpa using h⟩

/-- The EXP table of spec/95_test_vectors.md §2.1. -/
def specExp : Bytes 256 := ofList
  ( [1, 45, 226, 147, 190, 69, 21, 174, 120, 3, 135, 164, 184, 56, 207, 63]
    ++ ([8, 103, 9, 148, 235, 38, 168, 107, 189, 24, 52, 27, 187, 191, 114, 247]
    ++ ([64, 53, 72, 156, 81, 47, 59, 85, 227, 192, 159, 216, 211, 243, 141, 177]
    ++ ([255, 167, 62, 220, 134, 119, 215, 166, 17, 251, 244, 186, 146, 145, 100, 131]
    ++ ([241, 51, 239, 218, 44, 181, 178, 43, 136, 209, 153, 203, 140, 132, 29, 20]
    ++ ([129, 151, 113, 202, 95, 163, 139, 87, 60, 130, 196, 82, 92, 28, 232, 160]
    ++ ([4, 180, 133, 74, 246, 19, 84, 182, 223, 12, 26, 142, 222, 224, 57, 252]
    ++ ([32, 155, 36, 78, 169, 152, 158, 171, 242, 96, 208, 108, 234, 250, 199, 217]
    ++ ([0, 212, 31, 110, 67, 188, 236, 83, 137, 254, 122, 93, 73, 201, 50, 194]
    ++ ([249, 154, 248, 109, 22, 219, 89, 150, 68, 233, 205, 230, 70, 66, 143, 10]
    ++ ([193, 204, 185, 101, 176, 210, 198, 172, 30, 65, 98, 41, 46, 14, 116, 80]
    ++ ([2, 90, 195, 37, 123, 138, 42, 91, 240, 6, 13, 71, 111, 112, 157, 126]
    ++ ([16, 206, 18, 39, 213, 76, 79, 214, 121, 48, 104, 54, 117, 125, 228, 237]
    ++ ([128, 106, 144, 55, 162, 94, 118, 170, 197, 127, 61, 175, 165, 229, 25, 97]
    ++ ([253, 77, 124, 183, 11, 238, 173, 75, 34, 245, 231, 115, 35, 33, 200, 5]
    ++ ([225, 102, 221, 179, 88, 105, 99, 86, 15, 161, 49, 149, 23, 7, 58, 40]))))))))))))))) )

/-- The LOG table of §2.1. -/
def specLog : Bytes 256 := ofList
  ( [128, 0, 176, 9, 96, 239, 185, 253, 16, 18, 159, 228, 105, 186, 173, 248]
    ++ ([192, 56, 194, 101, 79, 6, 148, 252, 25, 222, 106, 27, 93, 78, 168, 130]
    ++ ([112, 237, 232, 236, 114, 179, 21, 195, 255, 171, 182, 71, 68, 1, 172, 37]
    ++ ([201, 250, 142, 65, 26, 33, 203, 211, 13, 110, 254, 38, 88, 218, 50, 15]
    ++ ([32, 169, 157, 132, 152, 5, 156, 187, 34, 140, 99, 231, 197, 225, 115, 198]
    ++ ([175, 36, 91, 135, 102, 39, 247, 87, 244, 150, 177, 183, 92, 139, 213, 84]
    ++ ([121, 223, 170, 246, 62, 163, 241, 17, 202, 245, 209, 23, 123, 147, 131, 188]
    ++ ([189, 82, 30, 235, 174, 204, 214, 53, 8, 200, 138, 180, 226, 205, 191, 217]
    ++ ([208, 80, 89, 63, 77, 98, 52, 10, 72, 136, 181, 86, 76, 46, 107, 158]
    ++ ([210, 61, 60, 3, 19, 251, 151, 81, 117, 74, 145, 113, 35, 190, 118, 42]
    ++ ([95, 249, 212, 85, 11, 220, 55, 49, 22, 116, 215, 119, 167, 230, 7, 219]
    ++ ([164, 47, 70, 243, 97, 69, 103, 227, 12, 162, 59, 28, 133, 24, 4, 29]
    ++ ([41, 160, 143, 178, 90, 216, 166, 126, 238, 141, 83, 75, 161, 154, 193, 14]
    ++ ([122, 73, 165, 44, 129, 196, 199, 54, 43, 127, 67, 149, 51, 242, 108, 104]
    ++ ([109, 240, 2, 40, 206, 221, 155, 234, 94, 153, 124, 20, 134, 207, 229, 66]
    ++ ([184, 64, 120, 45, 58, 233, 100, 31, 146, 144, 125, 57, 111, 224, 137, 48]))))))))))))))) )

/-- The schedule of §3.1: key 1..8, six rounds. -/
def specSk : Bytes 216 := ofList
  ( [1, 2, 3, 4, 5, 6, 7, 8, 38, 139, 91, 70, 190, 168, 253, 198]
    ++ ([7, 127, 101, 215, 178, 121, 138, 134, 185, 196, 175, 197, 32, 26, 199, 59]
    ++ ([25, 186, 152, 44, 228, 181, 12, 219, 201, 234, 153, 92, 141, 249, 27, 248]
    ++ ([130, 252, 37, 65, 219, 150, 211, 236, 107, 234, 86, 137, 163, 63, 139, 148]
    ++ ([163, 105, 162, 104, 97, 92, 152, 38, 121, 108, 211, 66, 233, 238, 179, 252]
    ++ ([227, 84, 96, 107, 226, 121, 54, 52, 3, 3, 33, 76, 244, 97, 45, 67]
    ++ ([207, 121, 61, 116, 0, 94, 247, 81] ++ List.replicate 112 0)))))) )

/-- Reset, with the tables built. -/
def tabled : State := { State.reset with exp := specExp, log := specLog, tblValid := true }

/-- Vector S2 (§1): the schedule of key 1..8 with 6 rounds, plaintext 1..8. -/
def s2 : State :=
  { tabled with sk := specSk, rounds := 6, schedValid := true, din := ofList [1, 2, 3, 4, 5, 6, 7, 8] }

/-! ## WellFormed smoke tests: ill-formed terms the checks refuse -/

theorem test_klenFits_refuses_256 : (Instr.keyexp 256 none).klenFits = false := by decide

theorem test_roundsFit_refuses_256 : (Instr.keyexp 8 (some 256)).roundsFit = false := by decide

theorem test_wellFormed_refuses_either :
    (Instr.keyexp 256 none).wellFormed = false ∧ (Instr.keyexp 8 (some 256)).wellFormed = false ∧
    (Instr.keyexp 255 (some 255)).wellFormed = true := by decide

/-! ## Decoding: words written out from R81 and R82, KLEN RREQ 0000000 RSEL 0000 OP -/

theorem test_decode_tblgen :
    decode 0b00000000_00000000_0000000_0_0000_0001 = .ok .tblgen ∧
    decode 0b11111111_11111111_1111111_1_1111_0001 = .ok .tblgen := by decide

theorem test_decode_keyexp :
    decode 0b00001000_00000110_0000000_1_0000_0010 = .ok (.keyexp 8 (some 6)) ∧
    decode 0b00010000_00000000_0000000_0_0000_0010 = .ok (.keyexp 16 none) ∧
    decode 0b10000001_01000010_1111111_1_1111_0010 = .ok (.keyexp 129 (some 66)) := by decide

theorem test_decode_enc :
    decode 0b00000000_00000000_0000000_0_0000_0011 = .ok .enc ∧ decode 0xFFFFFFF3 = .ok .enc := by decide

theorem test_decode_dec :
    decode 0b00000000_00000000_0000000_0_0000_0100 = .ok .dec ∧ decode 0xFFFFFFF4 = .ok .dec := by decide

/-- R82: 0x0 and 0x5 to 0xF are illegal. -/
theorem test_decode_illegal :
    (([0x0, 0x5, 0x6, 0x7, 0x8, 0x9, 0xA, 0xB, 0xC, 0xD, 0xE, 0xF] : List Nat).all fun op =>
      decode (BitVec.ofNat 32 (0x08060100 + op)) = .error (.illegalOp (BitVec.ofNat 4 op))) = true := by decide

theorem test_decodeTableWord :
    decodeTableWord 32 0x08060102 = some (.keyexp 8 (some 6)) ∧ decodeTableWord 8 3 = some .enc ∧
    decodeTableWord 32 7 = none := by decide

/-- R88: the assembler's syntax, with decimal and hexadecimal operands. -/
theorem test_assembleText :
    assembleText "TBLGEN".toList = some 0x00000001 ∧ assembleText "KEYEXP 8, 6".toList = some 0x08060102 ∧
    assembleText "KEYEXP 0x10".toList = some 0x10000002 ∧ assembleText "ENC".toList = some 0x00000003 ∧
    assembleText "DEC".toList = some 0x00000004 ∧ assembleText "KEYEXP 256".toList = none := by decide +kernel

/-! ## Byte arithmetic: spec/95_test_vectors.md §4.1 -/

theorem test_rotl8 :
    rotl8 0x80 5 = 0x10 ∧ rotl8 0x81 5 = 0x30 ∧ rotl8 0xA5 5 = 0xB4 ∧ rotl8 0x81 6 = 0x60 ∧ rotl8 0xA5 6 = 0x69 := by decide

theorem test_pht : pht 1 2 = (4, 3) ∧ pht 255 1 = (255, 0) ∧ pht 128 128 = (128, 0) ∧ pht 255 255 = (253, 254) := by decide

theorem test_invPht : invPht 4 3 = (1, 2) ∧ invPht 255 0 = (255, 1) ∧ invPht 253 254 = (255, 255) := by decide

theorem test_permute :
    permute ⟨10, 11, 12, 13, 14, 15, 16, 17⟩ = ⟨10, 14, 11, 15, 12, 16, 13, 17⟩ ∧
    unpermute ⟨10, 14, 11, 15, 12, 16, 13, 17⟩ = ⟨10, 11, 12, 13, 14, 15, 16, 17⟩ := by decide

/-- Round 0 of the trace of §4.2: after mix, L1, L2 and L3. -/
theorem test_round0_trace :
    mix specExp specLog specSk 0 ⟨1, 2, 3, 4, 5, 6, 7, 8⟩ = ⟨39, 235, 226, 71, 191, 193, 80, 199⟩ ∧
    phtLayer1 ⟨39, 235, 226, 71, 191, 193, 80, 199⟩ = ⟨57, 18, 11, 41, 63, 128, 103, 23⟩ ∧
    phtLayer2 ⟨57, 18, 11, 41, 63, 128, 103, 23⟩ = ⟨125, 77, 68, 59, 229, 23, 166, 151⟩ ∧
    phtLayer3 ⟨125, 77, 68, 59, 229, 23, 166, 151⟩ = ⟨223, 177, 46, 13, 98, 100, 234, 210⟩ := by decide +kernel

/-! ## The four commands -/

/-- TBLGEN after reset gives the tables of §2.1. -/
theorem test_tblgen_tables :
    (let w := buildTables (zeros 256) (zeros 256)
     w.exp = specExp ∧ w.log = specLog) := by
  have h : (buildTables (zeros 256) (zeros 256)).exp.toList = specExp.toList ∧
      (buildTables (zeros 256) (zeros 256)).log.toList = specLog.toList := by decide +kernel
  exact ⟨Vector.toList_inj.mp h.1, Vector.toList_inj.mp h.2⟩

theorem test_tblgen_state :
    exec .tblgen State.reset = .next (({ State.reset.leaveGenerator with
      exp := builtExp, log := builtLog, tblValid := true }).finish .ok) := rfl

/-- Key 1..8 of §3.1. -/
def s2key : Bytes 16 := ofList [1, 2, 3, 4, 5, 6, 7, 8, 0, 0, 0, 0, 0, 0, 0, 0]

/-- The whole schedule of §3.1. -/
theorem test_keyexp_schedule : expandKey specExp s2key 8 6 (zeros 216) = specSk := by
  have h : (expandKey specExp s2key 8 6 (zeros 216)).toList = specSk.toList := by decide +kernel
  exact Vector.toList_inj.mp h

/-- §3.4, §3.5: STATUS after success, default and clamp; NO_TABLE wins; a failed re-key destroys the schedule. -/
theorem test_keyexp_outcomes :
    statusWord (after (exec (.keyexp 8 (some 6)) tabled)) = 0x606 ∧
    statusWord (after (exec (.keyexp 8 none) tabled)) = 0x806 ∧
    statusWord (after (exec (.keyexp 8 (some 50)) tabled)) = 0xD06 ∧
    statusWord (after (exec (.keyexp 8 (some 0)) State.reset)) = 0x20 ∧
    statusWord (after (exec (.keyexp 8 (some 0)) s2)) = 0x32 ∧
    (after (exec (.keyexp 8 (some 0)) s2)).sk = zeros 216 := by decide +kernel

/-- Vector S2: the ciphertext, and DIN kept. -/
theorem test_enc_s2 :
    numbers (after (exec .enc s2)).dout = [95, 206, 155, 162, 5, 132, 56, 199] ∧
    (after (exec .enc s2)).din = s2.din := by decide +kernel

/-- §4.3: the all-zero block under the same schedule. -/
theorem test_enc_zero_block :
    numbers (after (exec .enc { s2 with din := zeros 8 })).dout = [233, 169, 154, 148, 75, 45, 142, 87] := by decide +kernel

/-- Vector S2 back. -/
theorem test_dec_s2 :
    numbers (after (exec .dec { s2 with din := ofList [95, 206, 155, 162, 5, 132, 56, 199] })).dout
      = [1, 2, 3, 4, 5, 6, 7, 8] := by decide +kernel

/-- §3.4, last row: DEC of 1..8 under the same schedule. -/
theorem test_dec_plain :
    numbers (after (exec .dec s2)).dout = [229, 135, 157, 195, 131, 218, 233, 234] := by decide +kernel

/-! ## The shell: spec/95_test_vectors.md §2.2 and §6 -/

theorem test_status_values :
    statusWord State.reset = 0 ∧ statusWord tabled = 2 ∧ statusWord s2 = 0x606 ∧ statusWord (s2.accept 3) = 0x607 ∧
    statusWord (s2.finish .illegalCmd) = 0x616 := by decide +kernel

theorem test_window_words :
    (hostRead 0x100 tabled).1 = 0x93E22D01 ∧ (hostRead 0x103 tabled).1 = 0x93E22D01 ∧ (hostRead 0x1FC tabled).1 = 0x283A0717 ∧
    (hostRead 0x204 tabled).1 = 0xFDB9EF60 ∧ (hostRead 0x304 s2).1 = 0x08070605 ∧ (hostRead 0x364 s2).1 = 0x51F75E00 := by
  decide +kernel

theorem test_reserved_offsets :
    (([0x008, 0x00C, 0x030, 0x3D8, 0xFFC] : List Addr).all fun a => (hostRead a s2).1 = 0) = true := by decide +kernel

theorem test_write_din :
    numbers (hostWrite 0x023 0x11223344 State.reset).din = [0x44, 0x33, 0x22, 0x11, 0, 0, 0, 0] ∧
    (hostWrite 0x020 0x11223344 (s2.accept 3)).din = s2.din := by decide +kernel

theorem test_narrow_access_refused (width : NarrowWidth) (a : Addr) :
    step { State.reset with program := [.narrow width a] } = .refused .narrowAccess := rfl

/-- R66, R241: the placed word is what the next step completes. -/
theorem test_withFetchWord : statusWord (after (step (s2.withFetchWord 32 0xFFFFFFF3))) = 0x606 ∧
    statusWord (after (step (State.reset.withFetchWord 32 0x00000007))) = 0x10 := by decide +kernel

/-- §7 P1, steps 2 and 4. -/
theorem test_expandHost :
    expandHost (.ldkey [1, 2, 3, 4, 5, 6, 7, 8]) = some
      [.wr 0x010 (.lit 0x04030201), .wr 0x014 (.lit 0x08070605), .wr 0x018 (.lit 0), .wr 0x01C (.lit 0)] ∧
    expandHost (.ldblk 1 2 3 4 5 6 7 8) = some [.wr 0x020 (.lit 0x04030201), .wr 0x024 (.lit 0x08070605)] := by decide


/-! ## Witnesses -/

/-- A table that maps each byte to itself. -/
def idTable : Bytes 256 := Vector.ofFn fun i => BitVec.ofNat 8 i

theorem lookup_idTable (x : Byte) : lookup idTable (lookup idTable x) = x ∧ lookup idTable (lookup idTable x) = x := by
  have h : ∀ y : Byte, lookup idTable y = y := fun y => by
    rw [lookup, idTable, rd_ofFn _ (by simpa using y.isLt)]
    simp
  exact ⟨by rw [h, h], by rw [h, h]⟩

theorem inv_reset : EngineInv State.reset := by
  constructor <;> simp [State.reset, zeros, NamesRise]

theorem specSk_tail : ∀ i, 104 ≤ i → rd specSk i = 0 := by
  intro i hi
  rw [← test_keyexp_schedule]
  exact rd_expandKey_tail specExp s2key 8 6 (zeros 216) i hi

/-- Vector S2's state has the invariant: a state with tables and a schedule. -/
theorem inv_s2 : EngineInv s2 where
  pend_iff_busy := rfl
  err_clear_while_busy := by decide +kernel
  tables_built := fun _ => ⟨test_tblgen_tables.1.symm, test_tblgen_tables.2.symm⟩
  tables_empty := by decide +kernel
  sched_rounds := by decide +kernel
  no_sched := by intro h; cases h
  sched_of_key := fun _ => ⟨s2key, 8, test_keyexp_schedule.symm⟩
  sched_tail := fun _ => specSk_tail
  scratch_zero := by decide +kernel
  names_rise := List.Pairwise.nil

theorem step_s2_enc :
    step (s2.accept 3) = .next (({ (s2.accept 3).leaveDatapath with
      dout := encryptBlock specExp specLog specSk 6 s2.din }).finish .ok) :=
  exec_enc_ok (s := s2.accept 3) rfl (by decide +kernel)

theorem step_s2_badKeyexp :
    step (s2.withFetchWord 32 0x08000102) =
      .next ((s2.accept 0x08000102).dropSchedule.clearKeys.finish .invalidRoundCount) := rfl

/-- The invariant speaks of no host program and no schedule of turns, and survives acceptance. -/
theorem inv_accept {s : State} (h : EngineInv s) (v : Word) (p : List HostOp) (q : List Turn) :
    EngineInv { s.accept v with program := p, schedule := q } :=
  ⟨rfl, fun _ => rfl, h.tables_built, h.tables_empty, h.sched_rounds, h.no_sched, h.sched_of_key, h.sched_tail, h.scratch_zero,
    h.names_rise⟩

theorem inv_idle {s : State} (h : EngineInv s) (p : List HostOp) (q : List Turn) :
    EngineInv { s with program := p, schedule := q } :=
  ⟨h.pend_iff_busy, h.err_clear_while_busy, h.tables_built, h.tables_empty, h.sched_rounds, h.no_sched, h.sched_of_key, h.sched_tail,
    h.scratch_zero, h.names_rise⟩

theorem witness_DecodeInvertsEncode :
    (Instr.keyexp 255 (some 255)).wellFormed = true ∧ (Instr.keyexp 0 none).wellFormed = true ∧ Instr.enc.wellFormed = true := by
  decide

theorem witness_OpcodeSelectsCommand :
    op 0xFFFFFFF1 = 1 ∧ op 0x08060102 = 2 ∧ op 0x00000003 = 3 ∧ op 0xFFFFFFF4 = 4 ∧ illegalOp 0xFFFFFFF0 ∧ illegalOp 0x00000005 ∧
    illegalOp 0xFFFFFFFF := by simp only [illegalOp]; decide

theorem witness_CommandWordFields :
    op 0xFFFFFFF2 = 2 ∧ op 0x08060102 = 2 ∧ (op 0xFFFFFFF3 = op 0x00000003 ∧ op 0x00000003 = 3) := by decide

theorem witness_IgnoredBitsDoNotMatter :
    (let w : Word := 0x08060102
     let v : Word := 0x0806FFF2
     op w = op v ∧ w.toNat / 2 ^ 16 = v.toNat / 2 ^ 16 ∧ w.toNat / 2 ^ 8 % 2 = v.toNat / 2 ^ 8 % 2 ∧
       decode w = .ok (.keyexp 8 (some 6)) ∧ decode v = .ok (.keyexp 8 (some 6))) ∧
    op 0xFFFFFFF3 = op 0x00000003 := by decide

theorem witness_EncodingExamples : tabled.tblValid = true := rfl

theorem witness_IllegalWordCompletes :
    illegalOp 0x00000007 ∧ offsetOf 0x000 = 0 ∧ offsetOf 0x003 = 0 ∧ State.reset.busy = false ∧
    (s2.accept 0xFFFFFFF0).busy = true ∧ (s2.accept 0xFFFFFFF0).pend = some 0xFFFFFFF0 ∧ illegalOp 0xFFFFFFF0 := by simp only [illegalOp]; decide +kernel

theorem witness_EngineStepCompletesPend :
    State.reset.busy = false ∧ ((s2.accept 3).busy = true ∧ (s2.accept 3).pend = some 3) ∧
    (op 0xFFFFFFF1 = 1 ∧ op 0x08060102 = 2 ∧ op 3 = 3 ∧ op 4 = 4 ∧ illegalOp 0 ∧ illegalOp 0xFFFFFFFF) ∧
    ∃ t, exec .enc (s2.accept 3) = .next t :=
  ⟨rfl, ⟨rfl, rfl⟩, by simp only [illegalOp]; decide, exec_answers .enc _ (by decide +kernel)⟩

theorem witness_StepRunsDecodedCommand :
    (let s := s2.accept 3
     s.busy = true ∧ s.pend = some 3 ∧ decode 3 = .ok .enc ∧ s.schedule = []) ∧
    (let s := s2.withFetchWord 32 0x08060102
     s.busy = true ∧ s.pend = some 0x08060102 ∧ decode 0x08060102 = .ok (.keyexp 8 (some 6)) ∧ ∃ rest, s.schedule = .engine :: rest) :=
  ⟨⟨rfl, rfl, rfl, rfl⟩, rfl, rfl, rfl, [], rfl⟩

/-- An ENC in flight, with two host turns before its completion: a dropped write and one poll. -/
def busyWithHost : State :=
  { s2.accept 3 with program := [.wr 0x020 (.lit 0), .poll 0], schedule := [.host, .host, .engine] }

theorem witness_DelayedCompletionSameResult :
    busyWithHost.busy = true ∧ busyWithHost.schedule = List.replicate 2 .host ++ .engine :: [] ∧
    (∃ s', stepsTo 2 busyWithHost s') ∧ ∃ t, engineTurn busyWithHost = .next t := by
  refine ⟨rfl, rfl, ⟨_, _, rfl, _, rfl, rfl⟩, ?_⟩
  rw [engineTurn_busy (w := 3) rfl rfl, completion_ok _ (i := .enc) rfl]
  exact exec_answers .enc _ (by decide +kernel)

theorem witness_BusyCommandEndsSoon :
    EngineInv busyWithHost ∧ busyWithHost.busy = true ∧ busyWithHost.hostRuns = true :=
  ⟨inv_accept inv_s2 3 _ _, rfl, by decide +kernel⟩

/-- A host program with every kind of operation the interface has, a `WR` of a name it has read among them. -/
def chained : State :=
  { State.reset with
    program := [.wr 0x000 (.lit 1), .poll 0, .rd 0x028 1, .wr 0x020 (.var 1)]
    schedule := [.engine, .host, .reset] }

theorem witness_HostProgramEnds : EngineInv chained ∧ chained.hostRuns = true := ⟨inv_idle inv_reset _ _, by decide +kernel⟩

/-- The boundary addresses of each clause, with bits 1:0 set at the upper end, idle and busy. -/
theorem witness_HostReadMap :
    offsetOf 0x003 = 0x000 ∧ offsetOf 0x007 = 0x004 ∧
    (offsetOf 0x010 = 0x010 + 4 * 0 ∧ offsetOf 0x01F = 0x010 + 4 * 3) ∧ (offsetOf 0x020 = 0x020 + 4 * 0 ∧ offsetOf 0x027 = 0x020 + 4 * 1) ∧
    (offsetOf 0x028 = 0x028 + 4 * 0 ∧ offsetOf 0x02F = 0x028 + 4 * 1) ∧ (offsetOf 0x100 = 0x100 + 4 * 0 ∧ offsetOf 0x1FF = 0x100 + 4 * 63) ∧
    (offsetOf 0x200 = 0x200 + 4 * 0 ∧ offsetOf 0x2FF = 0x200 + 4 * 63) ∧ (offsetOf 0x300 = 0x300 + 4 * 0 ∧ offsetOf 0x3D7 = 0x300 + 4 * 53) ∧
    (reservedOffset (offsetOf 0x008) ∧ reservedOffset (offsetOf 0x00F) ∧ reservedOffset (offsetOf 0x030) ∧
      reservedOffset (offsetOf 0x0FF) ∧ reservedOffset (offsetOf 0x3D8) ∧ reservedOffset (offsetOf 0xFFF)) ∧
    s2.busy = false ∧ busyWithHost.busy = true := by
  simp [offsetOf, reservedOffset, busyWithHost, s2, tabled, State.reset]

theorem witness_HostWriteMap :
    s2.busy = false ∧ busyWithHost.busy = true ∧ offsetOf 0x003 = 0x000 ∧ offsetOf 0x01C = 0x010 + 4 * 3 ∧
    offsetOf 0x024 = 0x020 + 4 * 1 ∧ offsetOf 0x004 = 0x004 ∧ offsetOf 0x02F = 0x02C ∧ offsetOf 0x100 = 0x100 ∧ offsetOf 0x3D7 = 0x3D4 ∧
    reservedOffset (offsetOf 0x3D8) := by
  simp [offsetOf, reservedOffset, busyWithHost, s2, tabled, State.reset]

theorem witness_AddressLowBitsIgnored :
    (0x100 : Addr).toNat / 4 = (0x103 : Addr).toNat / 4 ∧
    ({ State.reset with program := [.narrow .byte 0x100] } : State).program = .narrow .byte 0x100 :: [] := by decide +kernel

theorem witness_ReservedOffsetsInert :
    reservedOffset (offsetOf 0x008) ∧ reservedOffset (offsetOf 0xFFC) ∧
    ({ State.reset with program := [.rd 0xFFC 0] } : State).program = .rd 0xFFC 0 :: [] ∧
    ({ State.reset with program := [.wr 0x008 (.lit 1)] } : State).program = .wr 0x008 (.lit 1) :: [] := by
  refine ⟨by simp [offsetOf, reservedOffset], by simp [offsetOf, reservedOffset], rfl, rfl⟩

theorem witness_LittleEndianPacking : (0 : Nat) < 4 ∧ (3 : Nat) < 4 ∧ 4 * 53 + 3 < 216 ∧ ¬ 4 * 54 + 3 < 216 := by decide

theorem witness_StatusLayout : offsetOf 0x004 = 0x004 ∧ offsetOf 0x007 = 0x004 := by decide

theorem witness_DinReadsBackAsWritten :
    s2.busy = false ∧ (offsetOf 0x020 = 0x020 ∧ offsetOf 0x024 = 0x024) ∧ (offsetOf 0x027 = 0x024 ∧ offsetOf 0x023 = 0x020) ∧
    (∃ t, exec .enc s2 = .next t) ∧ ∃ t, exec .dec s2 = .next t :=
  ⟨rfl, by decide, by decide, exec_answers _ _ (by decide +kernel), exec_answers _ _ (by decide +kernel)⟩

theorem witness_KeyIsWriteOnlyAndConsumed :
    offsetOf 0x010 = 0x010 + 4 * 0 ∧ offsetOf 0x01F = 0x010 + 4 * 3 ∧ (3 : Nat) < 4 ∧ s2.busy = false := by decide +kernel

/-- Idle at an offset that is UNSPECIFIED while busy; busy just outside each such range. -/
theorem witness_ReadsRevealNoKey :
    s2.busy = false ∧ unspecifiedWhileBusy (offsetOf 0x028) ∧ ¬ unspecifiedWhileBusy (offsetOf 0x027) ∧
    ¬ unspecifiedWhileBusy (offsetOf 0x030) ∧ ¬ unspecifiedWhileBusy (offsetOf 0x0FF) ∧ ¬ unspecifiedWhileBusy (offsetOf 0x3D8) := by
  simp [unspecifiedWhileBusy, offsetOf, s2, tabled, State.reset]

theorem witness_UnspecifiedReads :
    s2.busy = false ∧ busyWithHost.busy = true ∧
    (unspecifiedWhileBusy (offsetOf 0x028) ∧ unspecifiedWhileBusy (offsetOf 0x02F) ∧ unspecifiedWhileBusy (offsetOf 0x100) ∧
      unspecifiedWhileBusy (offsetOf 0x1FF) ∧ unspecifiedWhileBusy (offsetOf 0x200) ∧ unspecifiedWhileBusy (offsetOf 0x2FF) ∧
      unspecifiedWhileBusy (offsetOf 0x300) ∧ unspecifiedWhileBusy (offsetOf 0x3D7)) ∧
    (¬ unspecifiedWhileBusy (offsetOf 0x007) ∧ offsetOf 0x007 = 0x004 ∧ ¬ unspecifiedWhileBusy (offsetOf 0x020) ∧
      offsetOf 0x020 = 0x020 ∧ ¬ unspecifiedWhileBusy (offsetOf 0x027) ∧ offsetOf 0x027 = 0x024) ∧
    (¬ unspecifiedWhileBusy (offsetOf 0x010) ∧ offsetOf 0x010 ≠ 0x004 ∧ offsetOf 0x010 ≠ 0x020 ∧ offsetOf 0x010 ≠ 0x024) := by
  simp [unspecifiedWhileBusy, offsetOf, busyWithHost, s2, tabled, State.reset]

theorem witness_PseudoInstructionExpansions :
    ({ s2 with program := [.wr 0xFFC (.lit 5)] } : State).program = .wr 0xFFC (.lit 5) :: [] ∧
    ({ s2 with program := [.rd 0x028 5] } : State).program = .rd 0x028 5 :: [] ∧
    (let s := { s2 with program := [.wr 0x020 (.var 5)], vars := [(5, 0xA29BCE5F)] }
     s.program = .wr 0x020 (.var 5) :: [] ∧ lookupName 5 s.vars = some 0xA29BCE5F) ∧
    (let s := { s2 with program := [.wr 0x020 (.var 5)] }
     s.program = .wr 0x020 (.var 5) :: [] ∧ lookupName 5 s.vars = none) ∧
    (6 : HostName) ≠ 5 ∧
    ({ s2.accept 3 with program := [.poll 5] } : State).program = .poll 5 :: [] ∧
    ([1, 2, 3] : List Byte).length ≤ 16 ∧ ([] : List Byte).length ≤ 16 ∧ (List.replicate 16 (1 : Byte)).length ≤ 16 ∧
    lookupName 0 [(0, 0x04030201), (1, 0x08070605)] = some 0x04030201 ∧
    lookupName 1 [(0, 0x04030201), (1, 0x08070605)] = some 0x08070605 ∧
    blockOfNames [(0, 0x04030201), (1, 0x08070605)] 0 1 = some s2.din := by decide +kernel

theorem witness_ResetAbandonsCommand : nextTurn { busyWithHost with schedule := [.reset, .host] } = .reset := rfl

/-- An acceptance, a completion and a reset. -/
theorem witness_BusyChangesOnlyByHandshake :
    (State.reset.busy = false ∧ offsetOf 0x003 = 0 ∧ engineTurn State.reset = .next State.reset) ∧
    (∃ t, step { State.reset with program := [.wr 0x000 (.lit 1)] } = .next t ∧ t.busy ≠ State.reset.busy) ∧
    (∃ t, step (s2.accept 3) = .next t ∧ t.busy ≠ (s2.accept 3).busy) ∧
    ∃ t, step { busyWithHost with schedule := [.reset] } = .next t ∧ t.busy ≠ busyWithHost.busy :=
  ⟨⟨rfl, by decide, rfl⟩, ⟨_, rfl, by decide⟩, ⟨_, step_s2_enc, by decide +kernel⟩, ⟨_, rfl, by decide +kernel⟩⟩

theorem witness_TblValidLife :
    (∃ t, step { s2 with schedule := [.reset] } = .next t ∧ s2.tblValid = true ∧ t.tblValid = false) ∧
    EngineInv s2 ∧ ∃ t, step s2 = .next t ∧ t.tblValid = true :=
  ⟨⟨_, rfl, rfl, rfl⟩, inv_s2, _, rfl, rfl⟩

theorem witness_SchedValidLife :
    (∃ t, step { s2 with schedule := [.reset] } = .next t ∧ t.schedValid ≠ s2.schedValid) ∧
    (∃ t, step (s2.withFetchWord 32 0x08000102) = .next t ∧ t.schedValid ≠ s2.schedValid) ∧ State.reset.schedValid = false := by
  refine ⟨⟨_, rfl, by decide +kernel⟩, ⟨_, step_s2_badKeyexp, by decide +kernel⟩, rfl⟩

theorem witness_ErrLife :
    s2.busy = false ∧ offsetOf 0x000 = 0 ∧
    (∃ t, step { s2.finish .illegalCmd with program := [.wr 0x000 (.lit 1)] } = .next t ∧ t.err ≠ .illegalCmd) ∧
    (∃ t, step (State.reset.withFetchWord 32 7) = .next t ∧ t.err ≠ .ok) ∧
    ∃ t, step { s2.finish .illegalCmd with schedule := [.reset] } = .next t ∧ t.err ≠ .illegalCmd :=
  ⟨rfl, by decide, ⟨_, rfl, by decide⟩, ⟨_, rfl, by decide⟩, _, rfl, by decide⟩

theorem witness_DoutWrittenOnlyByCipher :
    (offsetOf 0x028 = 0x028 + 4 * 0 ∧ offsetOf 0x02F = 0x028 + 4 * 1 ∧ offsetOf 0x02F = 0x02C ∧ s2.busy = false) ∧
    (∃ t, step (s2.accept 3) = .next t ∧ t.dout ≠ s2.dout) ∧
    ∃ t, step { s2 with dout := s2.din, schedule := [.reset] } = .next t ∧ t.dout ≠ s2.din :=
  ⟨by decide +kernel, ⟨_, step_s2_enc, by decide +kernel⟩, _, rfl, by decide +kernel⟩

theorem witness_InternalMemoriesWriters :
    (∃ t, exec .enc s2 = .next t) ∧ (∃ t, exec .dec s2 = .next t) ∧
    (∃ t, step { s2 with schedule := [.reset] } = .next t ∧ t.sk ≠ s2.sk ∧ (t.exp ≠ s2.exp ∨ t.log ≠ s2.log)) ∧
    ∃ t, step (s2.withFetchWord 32 0x08000102) = .next t ∧ t.sk ≠ s2.sk := by
  refine ⟨exec_answers _ _ (by decide +kernel), exec_answers _ _ (by decide +kernel), ⟨_, rfl, by decide +kernel⟩,
    _, step_s2_badKeyexp, by decide +kernel⟩

theorem witness_StepKeepsInvariant :
    (EngineInv busyWithHost ∧ ∃ t, step busyWithHost = .next t) ∧ EngineInv (s2.accept 3) ∧ ∃ t, step (s2.accept 3) = .next t :=
  ⟨⟨inv_accept inv_s2 3 _ _, _, rfl⟩, inv_accept inv_s2 3 [] [], _, step_s2_enc⟩

theorem witness_StepAnswersFromInvariant :
    EngineInv busyWithHost ∧ busyWithHost.hostRuns = true := ⟨inv_accept inv_s2 3 _ _, by decide +kernel⟩

theorem witness_TableLaw :
    (1 ≤ 1 ∧ 1 ≤ 256) ∧ (1 ≤ 256 ∧ 256 ≤ 256) ∧ 45 ^ 128 % 257 = 256 ∧ rd builtExp 128 = 0 ∧ rd builtExp 0 = 1 := by
  rw [show builtExp = specExp from test_tblgen_tables.1]
  decide +kernel

theorem witness_TblgenReissue :
    (∃ t, exec .tblgen s2 = .next t) ∧ (∃ t, exec .tblgen State.reset = .next t) ∧ EngineInv s2 ∧ s2.tblValid = true :=
  ⟨⟨_, rfl⟩, ⟨_, rfl⟩, inv_s2, rfl⟩

theorem witness_KeyexpFailureEffects : State.reset.tblValid = false ∧ s2.tblValid = true ∧ (some 0 : Option Nat) = some 0 := ⟨rfl, rfl, rfl⟩

theorem witness_KeyexpSuccessEffects :
    s2.tblValid = true ∧ (none : Option Nat) ≠ some 0 ∧ (some 1 : Option Nat) ≠ some 0 ∧ (some 255 : Option Nat) ≠ some 0 := by
  decide +kernel

theorem witness_KeyexpScheduleBytes :
    s2.tblValid = true ∧ (some 13 : Option Nat) ≠ some 0 ∧
    (∃ t, exec (.keyexp 16 (some 13)) s2 = .next t ∧ 1 ≤ 13 ∧ 13 ≤ t.rounds.toNat ∧ 8 + 16 * t.rounds.toNat ≤ 216) ∧
    ∃ t, exec (.keyexp 8 (some 1)) s2 = .next t ∧ 1 ≤ t.rounds.toNat :=
  ⟨rfl, by decide, ⟨_, exec_keyexp_ok (r := 13) rfl, by decide +kernel⟩, _, exec_keyexp_ok (r := 1) rfl, by decide +kernel⟩

/-- Only the first three key bytes agree; and a 16-byte key against KLEN 255. -/
theorem witness_KeyexpIgnoresUnusedKeyBytes :
    (∀ i, i < min 3 16 → rd (wr s2key 3 255) i = rd s2key i) ∧ rd (wr s2key 3 255) 3 ≠ rd s2key 3 ∧
    (∀ i, i < min 255 16 → rd s2key i = rd s2key i) ∧ (16 : Nat) ≤ 16 ∧ (16 : Nat) ≤ 255 := by
  refine ⟨?_, by decide +kernel, fun _ _ => rfl, by decide, by decide⟩
  intro i hi
  rw [rd_wr_other _ _ (by omega)]

theorem witness_ShortKeyDuplication :
    (let s := { tabled with key := s2key }
     let key2 : Bytes 16 := ofList [1, 2, 3, 4, 5, 6, 7, 8, 1, 2, 3, 4, 5, 6, 7, 8]
     s.tblValid = true ∧ ∀ i < 8, rd key2 i = rd s.key i ∧ rd key2 (8 + i) = rd s.key i) ∧ (6 : Nat) ≠ 0 := by decide +kernel

theorem witness_RoundCountClamp : (13 : Nat) ≤ 13 ∧ (13 : Nat) ≤ 255 ∧ (255 : Nat) ≤ 255 ∧ s2.tblValid = true := by decide +kernel

theorem witness_SecondKeyexpExpandsZeroKey :
    (∃ t, exec (.keyexp 8 (some 6)) s2 = .next t) ∧ s2.tblValid = true ∧ (some 13 : Option Nat) ≠ some 0 :=
  ⟨exec_answers _ _ (by decide +kernel), rfl, by decide⟩

theorem witness_CipherWithoutSchedule :
    State.reset.schedValid = false ∧ s2.schedValid = true ∧ (∃ t, exec .enc s2 = .next t) ∧ (∃ t, exec .dec s2 = .next t) ∧
    EngineInv State.reset ∧ State.reset.tblValid = false :=
  ⟨rfl, rfl, exec_answers _ _ (by decide +kernel), exec_answers _ _ (by decide +kernel), inv_reset, rfl⟩

theorem witness_EncCompletes :
    s2.schedValid = true ∧ s2.rounds.toNat ≤ 13 ∧ ({ s2 with rounds := 13 } : State).rounds.toNat ≤ 13 := by decide +kernel

theorem witness_DecCompletes :
    (let s := { s2 with exp := idTable, log := idTable }
     s.schedValid = true ∧ s.rounds.toNat ≤ 13 ∧
     ∀ x : Byte, lookup s.log (lookup s.exp x) = x ∧ lookup s.exp (lookup s.log x) = x) :=
  ⟨rfl, by decide +kernel, lookup_idTable⟩

theorem witness_EncCursor : (13 : Nat) ≤ 13 ∧ (12 : Nat) < 13 ∧ (0 : Nat) ≤ 0 ∧ (0 : Nat) < 1 := by decide

theorem witness_DecCursor : ((1 : Nat) ≤ 1 ∧ (1 : Nat) ≤ 13 ∧ (0 : Nat) < 1) ∧ (1 : Nat) ≤ 13 ∧ (13 : Nat) ≤ 13 ∧ (12 : Nat) < 13 := by decide

theorem witness_InverseLayers :
    ∀ x : Byte, lookup idTable (lookup idTable x) = x ∧ lookup idTable (lookup idTable x) = x := lookup_idTable

theorem witness_EncDecRoundTrip : EngineInv s2 ∧ s2.schedValid = true := ⟨inv_s2, rfl⟩

theorem witness_CipherReadsOnlyItsSchedule :
    (let s' := { s2 with key := s2key, dout := s2.din, freeCtr := 7 }
     EngineInv s2 ∧ EngineInv s' ∧ s2.schedValid = true ∧ s'.schedValid = true ∧ s2.din = s'.din ∧ s2.rounds = s'.rounds ∧
     (∀ i, i < 8 + 16 * s2.rounds.toNat → rd s2.sk i = rd s'.sk i) ∧
     ((∃ t, exec .enc s2 = .next t) ∧ ∃ t, exec .enc s' = .next t) ∧ (∃ t, exec .dec s2 = .next t) ∧ ∃ t, exec .dec s' = .next t) :=
  ⟨inv_s2, ⟨rfl, inv_s2.err_clear_while_busy, inv_s2.tables_built, inv_s2.tables_empty, inv_s2.sched_rounds, inv_s2.no_sched,
    inv_s2.sched_of_key, inv_s2.sched_tail, inv_s2.scratch_zero, inv_s2.names_rise⟩, rfl, rfl, rfl, rfl, fun _ _ => rfl,
    ⟨exec_answers _ _ (by decide +kernel), exec_answers _ _ (by decide +kernel)⟩,
    exec_answers _ _ (by decide +kernel), exec_answers _ _ (by decide +kernel)⟩

theorem witness_ReservedRoundsUnreachable :
    EngineInv s2 ∧ (EngineInv State.reset ∧ State.reset.rounds = 0) ∧
    (let s := { s2 with rounds := 14 }
     s.schedValid = true ∧ 13 < s.rounds.toNat) ∧
    (let s := { s2 with rounds := 15 }
     s.schedValid = true ∧ 13 < s.rounds.toNat) :=
  ⟨inv_s2, ⟨inv_reset, rfl⟩, by decide +kernel, by decide +kernel⟩

theorem witness_LatencyByCommand :
    op 1 = 1 ∧ decode 0x08060102 = .ok (.keyexp 8 (some 6)) ∧ (some 6 : Option Nat) ≠ some 0 ∧
    decode 0x08000102 = .ok (.keyexp 8 (some 0)) ∧ op 3 = 3 ∧ op 4 = 4 ∧ illegalOp 0 ∧ illegalOp 15 := by simp only [illegalOp]; decide

/-- Idle with nothing left to do, and two such states that differ in what the observation leaves out. -/
theorem witness_ObservationOfEndedRun :
    (let s' := { s2 with idx := 95, eReg := 256, schedule := [.host], freeCtr := 3 }
     s2.runEnded = true ∧ s'.runEnded = true ∧ s2.arch = s'.arch) := ⟨rfl, rfl, rfl⟩

end Sys2Proof.Tests
end

section
/-! The engine's turn by its outcomes: every state a completion can leave, and the frames the status fields need. -/

namespace Sys2Proof.Machine

/-- R86, R105, R129, R128, R158, R159, R188, R189: the states a completion of the word `w` from `s` can leave
(`completion_inversion`). -/
inductive Completion (w : Word) (s : State) : State → Prop
  | tblgen (hd : decode w = .ok .tblgen) :
      Completion w s (({ s.leaveGenerator with
        exp := (buildTables s.exp s.log).exp, log := (buildTables s.exp s.log).log, tblValid := true }).finish .ok)
  | keyexpFails {klen : Nat} {rounds : Option Nat} {c : ErrCode} (hd : decode w = .ok (.keyexp klen rounds))
      (hc : keyexpChecks s.tblValid klen rounds = .error c) : Completion w s (s.dropSchedule.clearKeys.finish c)
  | keyexpSucceeds {klen : Nat} {rounds : Option Nat} {r : Nat} (hd : decode w = .ok (.keyexp klen rounds))
      (hc : keyexpChecks s.tblValid klen rounds = .ok r) :
      Completion w s (({ s.clearKeys with
        sk := expandKey s.exp s.key klen r s.sk, rounds := BitVec.ofNat 4 r, schedValid := true }).finish .ok)
  | noSchedule (hd : decode w = .ok .enc ∨ decode w = .ok .dec) (hs : s.schedValid = false) :
      Completion w s (s.finish .noSchedule)
  | cipher (hd : decode w = .ok .enc ∨ decode w = .ok .dec) (hs : s.schedValid = true) (dout : Bytes 8) :
      Completion w s (({ s.leaveDatapath with dout := dout }).finish .ok)
  | illegal {e : DecodeError} (hd : decode w = .error e) : Completion w s (s.finish .illegalCmd)

/-- R27, I8: ENC faults where it reads a reserved round count. -/
theorem exec_enc_reserved {s : State} (h : s.schedValid = true) (hr : 13 < s.rounds.toNat) :
    exec .enc s = .fault .roundsReserved := by
  simp [exec, execEnc, h, Config.maxRounds, hr]

/-- R27, I8: DEC faults where it reads a reserved round count. -/
theorem exec_dec_reserved {s : State} (h : s.schedValid = true) (hr : 13 < s.rounds.toNat) :
    exec .dec s = .fault .roundsReserved := by
  simp [exec, execDec, h, Config.maxRounds, hr]

/-- ENC and DEC are `s.finish .noSchedule` without a schedule, a fault for a reserved round count, and otherwise change DOUT and
the working registers alone. -/
theorem exec_cipher_inversion {w : Word} {i : Instr} {s t : State} (hi : i = .enc ∨ i = .dec) (hd : decode w = .ok i)
    (h : exec i s = .next t) : Completion w s t := by
  have hd' : decode w = .ok .enc ∨ decode w = .ok .dec := by
    rcases hi with rfl | rfl
    · exact .inl hd
    · exact .inr hd
  cases hs : s.schedValid with
  | false =>
    have e : exec i s = .next (s.finish .noSchedule) := by
      rcases hi with rfl | rfl
      · exact exec_enc_noSchedule hs
      · exact exec_dec_noSchedule hs
    obtain rfl : s.finish .noSchedule = t := by simpa [e] using h
    exact .noSchedule hd' hs
  | true =>
    by_cases hr : s.rounds.toNat ≤ 13
    · rcases hi with rfl | rfl
      · rw [exec_enc_ok hs hr, Host.Outcome.next.injEq] at h
        exact h ▸ .cipher hd' hs _
      · rw [exec_dec_ok hs hr, Host.Outcome.next.injEq] at h
        exact h ▸ .cipher hd' hs _
    · rcases hi with rfl | rfl
      · simp [exec_enc_reserved hs (by omega)] at h
      · simp [exec_dec_reserved hs (by omega)] at h

/-- R242: what a completion leaves is one of the states of `Completion`. -/
theorem completion_inversion {w : Word} {s t : State} (h : completion w s = .next t) : Completion w s t := by
  rcases completion_cases h with ⟨i, hd, hi⟩ | ⟨⟨e, hd⟩, rfl⟩
  · cases i with
    | tblgen =>
      rw [exec_tblgen, Host.Outcome.next.injEq] at hi
      exact hi ▸ .tblgen hd
    | keyexp klen rounds =>
      cases hc : keyexpChecks s.tblValid klen rounds with
      | error c =>
        rw [exec_keyexp_error hc, Host.Outcome.next.injEq] at hi
        exact hi ▸ .keyexpFails hd hc
      | ok r =>
        rw [exec_keyexp_ok hc, Host.Outcome.next.injEq] at hi
        exact hi ▸ .keyexpSucceeds hd hc
    | enc => exact exec_cipher_inversion (.inl rfl) hd hi
    | dec => exact exec_cipher_inversion (.inr rfl) hd hi
  · exact .illegal hd

/-- The checks of KEYEXP fail with NO_TABLE or INVALID_ROUND_COUNT, never with the code of success (R121, R134). -/
theorem keyexpChecks_error_ne_ok {tblValid : Bool} {klen : Nat} {rounds : Option Nat} {c : ErrCode}
    (h : keyexpChecks tblValid klen rounds = .error c) : c ≠ .ok := by
  rintro rfl
  cases tblValid with
  | false => simp [keyexpChecks] at h
  | true =>
    cases rounds with
    | none => simp [keyexpChecks, resolveRounds] at h
    | some rreq =>
      by_cases hr : rreq = 0 <;> simp [keyexpChecks, resolveRounds, hr] at h

/-- R242: every completion empties PEND and clears BUSY. -/
theorem completion_pend_busy {w : Word} {s t : State} (h : completion w s = .next t) : t.pend = none ∧ t.busy = false := by
  cases completion_inversion h <;> exact ⟨rfl, rfl⟩

end Sys2Proof.Machine
end

section
/-! The key schedule does not depend on the store it is written into (R126, R128): two runs of KEYEXP's loops agree on more
and more of the store. -/

namespace Sys2Proof.Machine

/-- A relation between two runs of one loop. -/
theorem forUp_related {α : Type} (P : Nat → α → α → Prop) (body : Nat → α → α) (lo : Nat)
    (hstep : ∀ i x y, P i x y → P (i + 1) (body (lo + i) x) (body (lo + i) y)) :
    ∀ n x y, P 0 x y → P n (forUp lo n body x) (forUp lo n body y) := by
  intro n
  induction n with
  | zero => intro x y h; exact h
  | succ n ih => intro x y h; simp only [forUp_succ_last]; exact hstep n _ _ (ih x y h)

/-- The accumulators of two runs of KEYEXP agree, and so do their stores below index `m`. -/
structure AgreeBelow (m : Nat) (w v : KeyWork) : Prop where
  ra : w.ra = v.ra
  rb : w.rb = v.rb
  sk : ∀ i < m, rd w.sk i = rd v.sk i

/-- Two arrays that agree below `m` agree below `m + 1` once byte `m` of both is written alike. -/
theorem rd_wr_agree {n m : Nat} {t u : Bytes n} (v : Byte) (h : ∀ i < m, rd t i = rd u i) :
    ∀ i < m + 1, rd (wr t m v) i = rd (wr u m v) i := by
  intro i hi
  simp only [rd_wr]
  split
  · rfl
  · by_cases him : i < m
    · exact h i him
    · rw [rd_of_le t (by omega), rd_of_le u (by omega)]

theorem initLane_agree (k1 k2 : Bytes 8) {i : Nat} {w v : KeyWork} (h : AgreeBelow i w v) :
    AgreeBelow (i + 1) (initLane k1 k2 i w) (initLane k1 k2 i v) where
  ra := by simp only [initLane, h.ra]
  rb := by simp only [initLane, h.rb]
  sk := rd_wr_agree _ h.sk

/-- R123: the accumulators and the first output group do not depend on the old store. -/
theorem initWork_agree (k1 k2 : Bytes 8) (sk sk' : Bytes 216) :
    AgreeBelow 8 (initWork k1 k2 sk) (initWork k1 k2 sk') := by
  refine forUp_related AgreeBelow (initLane k1 k2) 0 (fun i x y h => ?_) 8 _ _ ⟨rfl, rfl, fun i hi => by omega⟩
  rw [Nat.zero_add]
  exact initLane_agree k1 k2 h

/-- R124: rotation touches the accumulators alone. -/
theorem rotateAll_agree {m : Nat} {w v : KeyWork} (h : AgreeBelow m w v) : AgreeBelow m (rotateAll w) (rotateAll v) :=
  forUp_related (fun _ => AgreeBelow m) rotateLane 0
    (fun i x y hxy => ⟨by simp only [rotateLane, hxy.ra], by simp only [rotateLane, hxy.rb], hxy.sk⟩) 9 w v h

/-- R125: the first half of round `r`. -/
theorem emitRa_agree (exp : Bytes 256) (r : Nat) {w v : KeyWork} (h : AgreeBelow (roundBase r) w v) :
    AgreeBelow (roundBase r + 8) (forUp 0 8 (emitRa exp r) w) (forUp 0 8 (emitRa exp r) v) := by
  refine forUp_related (fun j => AgreeBelow (roundBase r + j)) (emitRa exp r) 0 (fun j x y hxy => ?_) 8 w v h
  rw [Nat.zero_add]
  refine ⟨hxy.ra, hxy.rb, ?_⟩
  simp only [emitRa, hxy.ra]
  exact rd_wr_agree _ hxy.sk

/-- R125: the second half of round `r`. -/
theorem emitRb_agree (exp : Bytes 256) (r : Nat) {w v : KeyWork} (h : AgreeBelow (roundBase r + 8) w v) :
    AgreeBelow (roundBase r + 16) (forUp 0 8 (emitRb exp r) w) (forUp 0 8 (emitRb exp r) v) := by
  refine forUp_related (fun j => AgreeBelow (roundBase r + 8 + j)) (emitRb exp r) 0 (fun j x y hxy => ?_) 8 w v h
  rw [Nat.zero_add]
  refine ⟨hxy.ra, hxy.rb, ?_⟩
  simp only [emitRb, hxy.rb]
  exact rd_wr_agree _ hxy.sk

theorem keyRound_agree (exp : Bytes 256) (r : Nat) {w v : KeyWork} (h : AgreeBelow (roundBase r) w v) :
    AgreeBelow (roundBase r + 16) (keyRound exp r w) (keyRound exp r v) :=
  emitRb_agree exp r (emitRa_agree exp r (rotateAll_agree h))

/-- R128: an expansion fills the store below SK_LEN(R) and clears the rest, so the store before it does not matter. -/
theorem expandKey_replaces (exp : Bytes 256) (key : Bytes 16) (klen r : Nat) (sk sk' : Bytes 216) :
    expandKey exp key klen r sk = expandKey exp key klen r sk' := by
  have hround : ∀ i x y, AgreeBelow (8 + 16 * i) x y →
      AgreeBelow (8 + 16 * (i + 1)) (keyRound exp (1 + i) x) (keyRound exp (1 + i) y) := by
    intro i x y h
    have hbase : roundBase (1 + i) = 8 + 16 * i := by simp [roundBase]
    have := keyRound_agree exp (1 + i) (hbase ▸ h)
    rwa [hbase, Nat.add_assoc, show 16 * i + 16 = 16 * (i + 1) by omega] at this
  have hagree := forUp_related (fun i => AgreeBelow (8 + 16 * i)) (keyRound exp) 1 hround r _ _
    (initWork_agree (keyBlock1 key klen) (keyBlock2 key klen) sk sk')
  apply bytes_ext
  intro i _
  simp only [expandKey, rd_clearTail]
  split
  · rfl
  · next hi => exact hagree.sk i (by simpa [Config.skLen] using hi)

end Sys2Proof.Machine
end
section
/-! The tables of TBLGEN (R101, R102): EXP holds the powers of 45 modulo 257, LOG their exponents, whatever the arrays held. -/

namespace Sys2Proof.Machine

/-- R101: the byte EXP[i] as a number, the value 256 cut to 0. -/
def powerByte (i : Nat) : Nat := 45 ^ i % 257 % 256

theorem powerByte_lt (i : Nat) : powerByte i < 256 := Nat.mod_lt _ (by decide)

/-- R102: 45 is a primitive root modulo 257. -/
theorem orderOf_generator : orderOf (45 : ZMod 257) = 256 :=
  orderOf_eq_prime_pow (p := 2) (n := 7) (by decide +kernel) (by decide +kernel)

/-- R102: the powers of 45 below the 256th are distinct modulo 257. -/
theorem power_injOn {i j : Nat} (hi : i < 256) (hj : j < 256) (h : 45 ^ i % 257 = 45 ^ j % 257) : i = j := by
  have hz : (45 : ZMod 257) ^ i = 45 ^ j := by
    have := (ZMod.natCast_eq_natCast_iff' (45 ^ i) (45 ^ j) 257).mpr h
    simpa using this
  exact pow_injOn_Iio_orderOf (by simpa [orderOf_generator] using hi) (by simpa [orderOf_generator] using hj) hz

/-- No power of 45 is 0 modulo the prime 257. -/
theorem power_pos (i : Nat) : 0 < 45 ^ i % 257 := by
  refine Nat.pos_of_ne_zero fun h => ?_
  have h257 : Nat.Prime 257 := by norm_num
  have := h257.dvd_of_dvd_pow (Nat.dvd_of_mod_eq_zero h)
  omega

/-- Cutting 256 to 0 loses nothing, as no power is 0: the bytes of EXP are distinct. -/
theorem powerByte_injOn {i j : Nat} (hi : i < 256) (hj : j < 256) (h : powerByte i = powerByte j) : i = j := by
  apply power_injOn hi hj
  have := power_pos i
  have := power_pos j
  have := Nat.mod_lt (45 ^ i) (show 257 > 0 by decide)
  have := Nat.mod_lt (45 ^ j) (show 257 > 0 by decide)
  simp only [powerByte] at h
  omega

/-- Every byte is an entry of EXP. -/
theorem powerByte_surj {b : Nat} (hb : b < 256) : ∃ i < 256, powerByte i = b := by
  have hinj : Function.Injective fun i : Fin 256 => (⟨powerByte i, powerByte_lt i⟩ : Fin 256) := by
    intro i j h
    exact Fin.ext (powerByte_injOn i.isLt j.isLt (by simpa using h))
  obtain ⟨i, hi⟩ := Finite.injective_iff_surjective.mp hinj ⟨b, hb⟩
  exact ⟨i, i.isLt, by simpa using hi⟩

/-- TBLGEN's loop after `k` iterations: E, and the entries written so far. -/
structure TablesUpTo (k : Nat) (w : TableWork) : Prop where
  e : w.e = 45 ^ k % 257
  exp : ∀ i < k, rd w.exp i = BitVec.ofNat 8 (powerByte i)
  log : ∀ i < k, rd w.log (powerByte i) = BitVec.ofNat 8 i

theorem tableIter_tablesUpTo {k : Nat} {w : TableWork} (hk : k < 256) (h : TablesUpTo k w) :
    TablesUpTo (k + 1) (tableIter k w) := by
  have ht : w.e % 256 = powerByte k := by rw [h.e, powerByte]
  have hindex : (BitVec.ofNat 8 (powerByte k)).toNat = powerByte k := by
    simpa using Nat.mod_eq_of_lt (powerByte_lt k)
  refine ⟨?_, fun i hi => ?_, fun i hi => ?_⟩
  · simp only [tableIter, h.e, Config.gen, Config.modulus]
    rw [Nat.mul_mod_mod, pow_succ, Nat.mul_comm]
  · simp only [tableIter, ht, rd_wr]
    split
    · next hki => rw [hki.1]
    · exact h.exp i (by omega)
  · simp only [tableIter, ht, hindex, rd_wr]
    split
    · next hki => rw [powerByte_injOn hk (by omega) hki.1]
    · next hki =>
      refine h.log i (lt_of_le_of_ne (by omega) ?_)
      rintro rfl
      exact hki ⟨rfl, powerByte_lt i⟩

/-- R101: what TBLGEN's loop builds, from any contents of the arrays. -/
theorem buildTables_tablesUpTo (exp log : Bytes 256) : TablesUpTo 256 (buildTables exp log) := by
  have hstep : ∀ k x, (k ≤ 256 → TablesUpTo k x) → k + 1 ≤ 256 → TablesUpTo (k + 1) (tableIter (0 + k) x) := by
    intro k x h hk
    rw [Nat.zero_add]
    exact tableIter_tablesUpTo (by omega) (h (by omega))
  exact forUp_invariant (fun k w => k ≤ 256 → TablesUpTo k w) tableIter 0 hstep 256 _
    (fun _ => ⟨rfl, fun i hi => by omega, fun i hi => by omega⟩) le_rfl

/-- R104: the EXP table built does not depend on what the arrays held. -/
theorem buildTables_exp (exp log : Bytes 256) : (buildTables exp log).exp = builtExp :=
  bytes_ext fun i hi => by
    rw [(buildTables_tablesUpTo exp log).exp i hi, builtExp, (buildTables_tablesUpTo _ _).exp i hi]

/-- R104: the LOG table built does not depend on what the arrays held. -/
theorem buildTables_log (exp log : Bytes 256) : (buildTables exp log).log = builtLog :=
  bytes_ext fun b hb => by
    obtain ⟨i, hi, rfl⟩ := powerByte_surj hb
    rw [(buildTables_tablesUpTo exp log).log i hi, builtLog, (buildTables_tablesUpTo _ _).log i hi]

/-- R101: EXP of the built tables. -/
theorem rd_builtExp {i : Nat} (hi : i < 256) : rd builtExp i = BitVec.ofNat 8 (45 ^ i % 257 % 256) :=
  (buildTables_tablesUpTo _ _).exp i hi

/-- R101: LOG of the built tables. -/
theorem rd_builtLog {i : Nat} (hi : i < 256) : rd builtLog (45 ^ i % 257 % 256) = BitVec.ofNat 8 i :=
  (buildTables_tablesUpTo _ _).log i hi

end Sys2Proof.Machine
end

section
/-! The invariant of the engine under each operation of a step (R37, R38). -/

namespace Sys2Proof.Machine

/-- Using up a turn touches nothing the invariant speaks of. -/
theorem EngineInv.takeTurn {s : State} (h : EngineInv s) : EngineInv s.takeTurn := { h with }

/-- R241, R55: a host turn changes KEY and DIN, or accepts a command, or assigns a name. -/
theorem EngineInv.hostTurn {s t : State} (h : EngineInv s) (ht : hostTurn s = .next t) : EngineInv t := by
  obtain ⟨key, din, pend, err, busy, program, vars, n, rfl, -, hport, hvars⟩ := hostTurn_frame ht
  have hnames : NamesRise vars := by
    rcases hvars with rfl | ⟨x, w, rfl⟩
    · exact h.names_rise
    · exact names_rise_assignName x w s.vars h.names_rise
  rcases hport with ⟨rfl, rfl, rfl⟩ | ⟨-, rfl, rfl, -, -, -, w, -, -, rfl⟩
  · exact { h with names_rise := hnames }
  · exact { h with pend_iff_busy := rfl, err_clear_while_busy := fun _ => rfl, names_rise := hnames }

/-- R230: reset leaves the engine empty. -/
theorem EngineInv.engineReset {s : State} (h : NamesRise s.vars) : EngineInv s.engineReset := by
  constructor <;> simp [h]

/-- R242: the end of a completion. -/
theorem EngineInv.finish {s : State} (h : EngineInv s) (c : ErrCode) : EngineInv (s.finish c) :=
  { h with pend_iff_busy := rfl, err_clear_while_busy := nofun }

/-- R101, R104: TBLGEN builds the tables a schedule was already expanded with, if there is one. -/
theorem EngineInv.tblgen {s : State} (h : EngineInv s) :
    EngineInv (({ s.leaveGenerator with
      exp := (buildTables s.exp s.log).exp, log := (buildTables s.exp s.log).log, tblValid := true }).finish .ok) :=
  { h.finish .ok with
    tables_built := fun _ => ⟨buildTables_exp _ _, buildTables_log _ _⟩
    tables_empty := nofun
    sched_rounds := fun hs => ⟨rfl, (h.sched_rounds hs).2⟩
    sched_of_key := fun hs => by
      obtain ⟨hexp, -⟩ := h.tables_built (h.sched_rounds hs).1
      simpa [buildTables_exp, hexp] using h.sched_of_key hs }

/-- R129, R127: a failed KEYEXP leaves no schedule and clears the scratch. -/
theorem EngineInv.keyexpFails {s : State} (h : EngineInv s) (c : ErrCode) :
    EngineInv (s.dropSchedule.clearKeys.finish c) :=
  { h.finish c with
    sched_rounds := nofun
    no_sched := fun _ => ⟨rfl, rfl⟩
    sched_of_key := nofun
    sched_tail := nofun
    scratch_zero := ⟨rfl, rfl, rfl, rfl⟩ }

/-- R128, R127: a successful KEYEXP leaves the schedule of the key it read, for a round count in [1, 13]. -/
theorem EngineInv.keyexpSucceeds {s : State} {klen : Nat} {rounds : Option Nat} {r : Nat} (h : EngineInv s)
    (hc : keyexpChecks s.tblValid klen rounds = .ok r) :
    EngineInv (({ s.clearKeys with
      sk := expandKey s.exp s.key klen r s.sk, rounds := BitVec.ofNat 4 r, schedValid := true }).finish .ok) := by
  obtain ⟨htbl, hr1, hr13⟩ := keyexpChecks_ok hc
  have hrounds : (BitVec.ofNat 4 r).toNat = r := by simpa using Nat.mod_eq_of_lt (show r < 16 by omega)
  exact { h.finish .ok with
    sched_rounds := fun _ => ⟨htbl, hrounds.symm ▸ hr1, hrounds.symm ▸ hr13⟩
    no_sched := nofun
    sched_of_key := fun _ => ⟨s.key, klen, by simpa [hrounds] using expandKey_replaces ..⟩
    sched_tail := fun _ i hi => rd_expandKey_tail _ _ _ _ _ i (hrounds ▸ hi)
    scratch_zero := ⟨rfl, rfl, rfl, rfl⟩ }

/-- R242: every completion keeps the invariant. -/
theorem EngineInv.completion {w : Word} {s t : State} (h : EngineInv s) (ht : completion w s = .next t) : EngineInv t := by
  cases completion_inversion ht with
  | tblgen => exact h.tblgen
  | keyexpFails => exact h.keyexpFails _
  | keyexpSucceeds _ hc => exact h.keyexpSucceeds hc
  | noSchedule => exact h.finish .noSchedule
  | cipher => exact { h.finish .ok with }
  | illegal => exact h.finish .illegalCmd

/-- R37, R38: every step keeps the invariant. -/
theorem EngineInv.step {s t : State} (h : EngineInv s) (ht : step s = .next t) : EngineInv t := by
  rcases step_cases ht with ⟨-, hhost⟩ | ⟨-, -, rfl⟩ | ⟨-, -, w, -, hw⟩ | ⟨-, rfl⟩
  · exact h.takeTurn.hostTurn hhost
  · exact h.takeTurn
  · exact h.takeTurn.completion hw
  · exact EngineInv.engineReset h.names_rise

/-- R27: ROUNDS is at most 13, with a schedule or without. -/
theorem EngineInv.rounds_le {s : State} (h : EngineInv s) : s.rounds.toNat ≤ 13 := by
  cases hs : s.schedValid with
  | true =>
    obtain ⟨-, -, hle⟩ := h.sched_rounds hs
    exact hle
  | false => simp [(h.no_sched hs).1]

/-- R37: while BUSY = 1 PEND holds a word. -/
theorem EngineInv.pend_of_busy {s : State} (h : EngineInv s) (hb : s.busy = true) : ∃ w, s.pend = some w :=
  Option.isSome_iff_exists.mp (h.pend_iff_busy ▸ hb)

/-- R200: the engine's turn answers from every state with the invariant. -/
theorem EngineInv.engineTurn_answers {s : State} (h : EngineInv s) : ∃ t, engineTurn s = .next t := by
  cases hb : s.busy with
  | false => exact ⟨s, engineTurn_idle hb⟩
  | true =>
    obtain ⟨w, hw⟩ := h.pend_of_busy hb
    rw [engineTurn_busy hb hw]
    cases hd : decode w with
    | ok i => simpa [completion_ok s hd] using exec_answers i s h.rounds_le
    | error e => exact ⟨_, completion_error s hd⟩

/-- R200: a host turn may be refused, but never faults. -/
theorem hostTurn_ne_fault (s : State) (f : Fault) : hostTurn s ≠ .fault f := by
  unfold hostTurn
  split
  · simp
  · next op rest _ =>
    cases op with
    | wr off v => simp only [runHostOp]; split <;> simp
    | rd off x => simp [runHostOp]
    | poll x => simp [runHostOp]
    | narrow width off => simp [runHostOp]

end Sys2Proof.Machine
end

section
/-! The host port by region: which region an offset names (R51), and what a read and a write of it do (R54, R55, R56). -/

namespace Sys2Proof.Machine

open Sys2Proof.Spec

/-- R53, R54: the region of an address is that of its word offset. -/
theorem region_of_offset {addr : Addr} {off : Nat} (h : offsetOf addr = off) : region addr = regionAt off := by
  rw [region, wordOffset_eq, ← h, offsetOf]

/-- R51: CMD stands at offset 0 alone. -/
theorem offset_of_region_cmd {addr : Addr} (h : region addr = .cmd) : offsetOf addr = 0 := by
  rw [region_of_offset rfl] at h
  unfold regionAt at h
  split_ifs at h with h0
  exact h0

/-- R54: a region whose read is UNSPECIFIED while BUSY = 1. -/
def Region.unspecified : Region → Bool
  | .dout _ | .expWin _ | .logWin _ | .skWin _ => true
  | .cmd | .status | .key _ | .din _ | .reserved => false

theorem unspecifiedWhileBusy_of_region {addr : Addr} (h : (region addr).unspecified = true) :
    unspecifiedWhileBusy (offsetOf addr) := by
  rw [region_of_offset rfl] at h
  unfold unspecifiedWhileBusy
  unfold regionAt at h
  split_ifs at h <;> simp [Region.unspecified] at h <;> (simp only [offsetOf] at *; omega)

section
variable {addr : Addr} {n : Nat} {v : Word} {s : State}

theorem hostRead_status (hr : region addr = .status) : hostRead addr s = (statusWord s, s) := by simp [hostRead, hr]

theorem hostRead_key (hr : region addr = .key n) : hostRead addr s = (0, s) := by simp [hostRead, hr]

theorem hostRead_din (hr : region addr = .din n) : hostRead addr s = (packWord s.din n, s) := by simp [hostRead, hr]

theorem hostRead_dout (hb : s.busy = false) (hr : region addr = .dout n) : hostRead addr s = (packWord s.dout n, s) := by
  simp [hostRead, hr, readWhenIdle, hb]

theorem hostRead_exp (hb : s.busy = false) (hr : region addr = .expWin n) : hostRead addr s = (packWord s.exp n, s) := by
  simp [hostRead, hr, readWhenIdle, hb]

theorem hostRead_log (hb : s.busy = false) (hr : region addr = .logWin n) : hostRead addr s = (packWord s.log n, s) := by
  simp [hostRead, hr, readWhenIdle, hb]

theorem hostRead_sk (hb : s.busy = false) (hr : region addr = .skWin n) : hostRead addr s = (packWord s.sk n, s) := by
  simp [hostRead, hr, readWhenIdle, hb]

theorem hostWrite_cmd (hb : s.busy = false) (hr : region addr = .cmd) : hostWrite addr v s = s.accept v := by
  simp [hostWrite, hb, hr]

theorem hostWrite_key (hb : s.busy = false) (hr : region addr = .key n) :
    hostWrite addr v s = { s with key := setWord s.key n v } := by simp [hostWrite, hb, hr]

theorem hostWrite_din (hb : s.busy = false) (hr : region addr = .din n) :
    hostWrite addr v s = { s with din := setWord s.din n v } := by simp [hostWrite, hb, hr]

/-- R22: STATUS is read-only. -/
theorem hostWrite_status (hr : region addr = .status) : hostWrite addr v s = s := by simp [hostWrite, hr]

/-- R31: DOUT is read-only. -/
theorem hostWrite_dout (hr : region addr = .dout n) : hostWrite addr v s = s := by simp [hostWrite, hr]

end

/-- R11: a byte appended below a word, as a number. -/
theorem toNat_append_byte {k : Nat} (x : BitVec k) (y : Byte) : (x ++ y).toNat = 2 ^ 8 * x.toNat + y.toNat := by
  rw [BitVec.toNat_append, ← Nat.shiftLeft_add_eq_or_of_lt y.isLt, Nat.shiftLeft_eq, Nat.mul_comm]

/-- R56: a packed word as a number. -/
theorem packWord_toNat {m : Nat} (t : Bytes m) (n : Nat) : (packWord t n).toNat = littleEndian t n := by
  simp only [packWord, littleEndian, toNat_append_byte]
  omega

/-- R56: byte `b` of a written word, read back. -/
theorem rd_setWord_byte {m : Nat} (t : Bytes m) (n b : Nat) (w : Word) (hn : 4 * n + 3 < m) (hb : b < 4) :
    rd (setWord t n w) (4 * n + b) = w.extractLsb' (8 * b) 8 := by
  rw [setWord_rd t n w _ hn]
  interval_cases b <;> simp

/-- R30: while BUSY = 0 a write of one DIN word is read back there, and leaves the other. -/
theorem hostRead_hostWrite_din {a b : Addr} {n m : Nat} {v : Word} {s : State} (hb : s.busy = false)
    (ha : region a = .din n) (hb' : region b = .din m) (hn : n < 2) (hne : n ≠ m) :
    (hostRead a (hostWrite a v s)).1 = v ∧ (hostRead b (hostWrite a v s)).1 = (hostRead b s).1 := by
  rw [hostWrite_din hb ha, hostRead_din ha, hostRead_din hb', hostRead_din hb']
  exact ⟨packWord_setWord_same _ n v (by omega), packWord_setWord_other _ n m v (by omega) hne⟩

/-- A field of `n` bits from bit `lo` on is `x` where its bits are. -/
theorem extractLsb'_eq_of_bits {n lo : Nat} {w : Word} {x : BitVec n} (h : ∀ i < n, w.getLsbD (lo + i) = x.getLsbD i) :
    w.extractLsb' lo n = x :=
  BitVec.eq_of_getLsbD_eq fun i hi => by simp [hi, h i hi]

/-- The fields of STATUS stand where R22 puts them. -/
theorem statusWord_fields (s : State) :
    (statusWord s).getLsbD 0 = s.busy ∧ (statusWord s).getLsbD 1 = s.tblValid ∧ (statusWord s).getLsbD 2 = s.schedValid ∧
    (statusWord s).getLsbD 3 = false ∧ (statusWord s).extractLsb' 4 3 = s.err.code ∧ (statusWord s).getLsbD 7 = false ∧
    (statusWord s).extractLsb' 8 4 = s.rounds ∧ (statusWord s).extractLsb' 12 20 = 0 := by
  simp only [statusWord, flagBit, BitVec.getLsbD_append]
  refine ⟨by simp, by simp, by simp, by simp, ?_, by simp, ?_, ?_⟩ <;>
  · apply extractLsb'_eq_of_bits
    intro i hi
    simp only [BitVec.getLsbD_append]
    interval_cases i <;> simp

end Sys2Proof.Machine
end
section
/-! What of the engine's state a step changes, by the agent whose turn it is (R23 to R26, R31). -/

namespace Sys2Proof.Machine

/-- R24: no host turn writes TBL_VALID. -/
theorem hostTurn_tblValid {s t : State} (h : hostTurn s = .next t) : t.tblValid = s.tblValid := by
  obtain ⟨_, _, _, _, _, _, _, _, rfl, -⟩ := hostTurn_frame h
  rfl

/-- R25: no host turn writes SCHED_VALID. -/
theorem hostTurn_schedValid {s t : State} (h : hostTurn s = .next t) : t.schedValid = s.schedValid := by
  obtain ⟨_, _, _, _, _, _, _, _, rfl, -⟩ := hostTurn_frame h
  rfl

/-- R31: no host turn writes DOUT. -/
theorem hostTurn_dout {s t : State} (h : hostTurn s = .next t) : t.dout = s.dout := by
  obtain ⟨_, _, _, _, _, _, _, _, rfl, -⟩ := hostTurn_frame h
  rfl

/-- R241: a host turn keeps BUSY and ERR, or it is an acceptance. -/
theorem hostTurn_handshake {s t : State} (h : hostTurn s = .next t) :
    (t.busy = s.busy ∧ t.err = s.err) ∨
    (s.busy = false ∧ t.busy = true ∧ t.err = .ok ∧ ∃ off v rest, s.program = .wr off v :: rest ∧ region off = .cmd) := by
  obtain ⟨_, _, _, _, _, _, _, _, rfl, -, ⟨hb, -, he⟩ | ⟨hs, hb, he, off, v, rest, _, hp, hr, -⟩, -⟩ := hostTurn_frame h
  · exact .inl ⟨hb, he⟩
  · exact .inr ⟨hs, hb, he, off, v, rest, hp, hr⟩

/-- A step that changes what no host turn reaches is a reset or a completion. -/
theorem step_changes {α : Type} (f : State → α) (htake : ∀ s, f s.takeTurn = f s)
    (hhost : ∀ {s t : State}, hostTurn s = .next t → f t = f s) {s t : State} (h : step s = .next t) (hne : f t ≠ f s) :
    nextTurn s = .reset ∨ (nextTurn s = .engine ∧ ∃ w, s.pend = some w ∧ Completion w s.takeTurn t) := by
  rcases step_cases h with ⟨-, ht⟩ | ⟨-, -, rfl⟩ | ⟨hn, -, w, hp, hw⟩ | ⟨hn, -⟩
  · exact absurd ((hhost ht).trans (htake s)) hne
  · exact absurd (htake s) hne
  · exact .inr ⟨hn, w, hp, completion_inversion hw⟩
  · exact .inl hn

/-- R242: whatever the engine's turn does, BUSY is 0 after it. -/
theorem engineTurn_busy_after {s t : State} (h : engineTurn s = .next t) : t.busy = false := by
  cases hb : s.busy with
  | false =>
    rw [engineTurn_idle hb, Host.Outcome.next.injEq] at h
    exact h ▸ hb
  | true =>
    cases hp : s.pend with
    | none => simp [engineTurn, hb, hp] at h
    | some w =>
      rw [engineTurn_busy hb hp] at h
      exact (completion_pend_busy h).2

end Sys2Proof.Machine
end

section
/-! The architectural state (R35): what `State.arch` leaves out changes no command's result, and no observation. -/

namespace Sys2Proof.Machine

open Sys2Proof.Spec

/-- The architectural part of an outcome. -/
def archOutcome : Host.Outcome State Fault Refusal → Host.Outcome State Fault Refusal
  | .next t => .next t.arch
  | .fault f => .fault f
  | .refused r => .refused r

theorem archOutcome_eq_next {o : Host.Outcome State Fault Refusal} {t : State} (h : archOutcome o = archOutcome (.next t)) :
    ∃ t', o = .next t' ∧ t'.arch = t.arch := by
  cases o with
  | next t' => exact ⟨t', rfl, by simpa [archOutcome] using h⟩
  | fault f => simp [archOutcome] at h
  | refused r => simp [archOutcome] at h

/-- R35: a command reads nothing that `State.arch` leaves out. -/
theorem exec_arch (i : Instr) (s : State) : archOutcome (exec i s.arch) = archOutcome (exec i s) := by
  cases i with
  | tblgen => rfl
  | keyexp klen rounds =>
    cases hc : keyexpChecks s.tblValid klen rounds with
    | error c => rw [exec_keyexp_error hc, exec_keyexp_error (s := s.arch) hc]; rfl
    | ok r => rw [exec_keyexp_ok hc, exec_keyexp_ok (s := s.arch) hc]; rfl
  | enc =>
    cases hs : s.schedValid with
    | false => rw [exec_enc_noSchedule hs, exec_enc_noSchedule (s := s.arch) hs]; rfl
    | true =>
      by_cases hr : s.rounds.toNat ≤ 13
      · rw [exec_enc_ok hs hr, exec_enc_ok (s := s.arch) hs hr]; rfl
      · rw [exec_enc_reserved hs (by omega), exec_enc_reserved (s := s.arch) hs (not_le.mp hr)]
  | dec =>
    cases hs : s.schedValid with
    | false => rw [exec_dec_noSchedule hs, exec_dec_noSchedule (s := s.arch) hs]; rfl
    | true =>
      by_cases hr : s.rounds.toNat ≤ 13
      · rw [exec_dec_ok hs hr, exec_dec_ok (s := s.arch) hs hr]; rfl
      · rw [exec_dec_reserved hs (by omega), exec_dec_reserved (s := s.arch) hs (not_le.mp hr)]

theorem completion_arch (w : Word) (s : State) : archOutcome (completion w s.arch) = archOutcome (completion w s) := by
  cases hd : decode w with
  | ok i => rw [completion_ok s hd, completion_ok s.arch hd, exec_arch]
  | error e => rw [completion_error s hd, completion_error s.arch hd]; rfl

theorem engineTurn_arch (s : State) : archOutcome (engineTurn s.arch) = archOutcome (engineTurn s) := by
  cases hb : s.busy with
  | false => rw [engineTurn_idle hb, engineTurn_idle (s := s.arch) hb]; rfl
  | true =>
    cases hp : s.pend with
    | none => simp [engineTurn, State.arch, hb, hp]
    | some w => rw [engineTurn_busy hb hp, engineTurn_busy (s := s.arch) hb hp, completion_arch]

/-- R37: the engine's turn gives the same architectural result from states of the same architectural part. -/
theorem engineTurn_congr {s s' t : State} (h : s'.arch = s.arch) (ht : engineTurn s = .next t) :
    ∃ t', engineTurn s' = .next t' ∧ t'.arch = t.arch := by
  apply archOutcome_eq_next
  rw [← ht, ← engineTurn_arch s', h, engineTurn_arch]

/-- R243: while BUSY = 1 a host turn changes no architectural state. -/
theorem hostTurn_arch {s t : State} (hb : s.busy = true) (h : hostTurn s = .next t) :
    t.arch = s.arch ∧ t.schedule = s.schedule := by
  obtain ⟨_, _, _, _, _, _, _, _, rfl, hbusy, -⟩ := hostTurn_frame h
  obtain ⟨rfl, rfl, rfl, rfl, rfl⟩ := hbusy hb
  exact ⟨rfl, rfl⟩

/-- R243, R250: after `k` scheduled host turns a busy state has lost those turns and no architectural state. -/
theorem stepsTo_hostTurns {k : Nat} {s s' : State} {rest : List Turn} (hb : s.busy = true)
    (hsched : s.schedule = List.replicate k .host ++ rest) (h : stepsTo k s s') :
    s'.arch = s.arch ∧ s'.schedule = rest := by
  induction k generalizing s with
  | zero =>
    obtain rfl : s' = s := h
    exact ⟨rfl, hsched⟩
  | succ k ih =>
    obtain ⟨u, hu, hsteps⟩ := h
    have hcons : s.schedule = .host :: (List.replicate k .host ++ rest) := hsched
    have hhost : hostTurn s.takeTurn = .next u := by simpa [step, turn, nextTurn, hcons] using hu
    obtain ⟨harch, hrest⟩ := hostTurn_arch (s := s.takeTurn) hb hhost
    have hub : u.busy = true := (congrArg State.busy harch).trans hb
    obtain ⟨harch', hsched'⟩ := ih hub (by simp [hrest, hcons]) hsteps
    exact ⟨harch'.trans harch, hsched'⟩

/-- R35, R54: an idle read shows the architectural state alone. -/
theorem hostRead_arch {s : State} (hb : s.busy = false) (addr : Addr) : (hostRead addr s).1 = (hostRead addr s.arch).1 := by
  have hb' : s.arch.busy = false := hb
  cases hr : region addr
  case cmd | reserved => simp only [hostRead, hr]
  case status => rw [hostRead_status hr, hostRead_status hr]; rfl
  case key => rw [hostRead_key hr, hostRead_key hr]
  case din => rw [hostRead_din hr, hostRead_din hr]; rfl
  case dout => rw [hostRead_dout hb hr, hostRead_dout hb' hr]; rfl
  case expWin => rw [hostRead_exp hb hr, hostRead_exp hb' hr]; rfl
  case logWin => rw [hostRead_log hb hr, hostRead_log hb' hr]; rfl
  case skWin => rw [hostRead_sk hb hr, hostRead_sk hb' hr]; rfl

theorem observe_arch {s : State} (hb : s.busy = false) : observe s = observe s.arch := by
  simp only [observe, readWords, hostRead_arch hb]

theorem runEnded_iff (s : State) : s.runEnded = true ↔ s.program = [] ∧ s.busy = false := by
  simp [State.runEnded]

/-- R56, R251: the words read from `base` on are those of the array the region there shows. -/
theorem readWords_eq_arrayWords {m : Nat} {base n : Nat} {s : State} {t : Bytes m} (hfit : base + 4 * n ≤ 4096) (hbase : base % 4 = 0)
    (hread : ∀ k < n, ∀ addr : Addr, region addr = regionAt (base + 4 * k) → (hostRead addr s).1 = packWord t k) :
    (readWords base n s).map BitVec.toNat = arrayWords t n := by
  simp only [readWords, arrayWords, List.map_map]
  refine List.map_congr_left fun k hk => ?_
  have hk : k < n := List.mem_range.mp hk
  have hoff : offsetOf (BitVec.ofNat 12 (base + 4 * k)) = base + 4 * k := by
    rw [offsetOf, BitVec.toNat_ofNat, Nat.mod_eq_of_lt (by omega)]
    omega
  rw [Function.comp_apply, hread k hk _ (region_of_offset hoff), packWord_toNat]

/-- R251: the observation of an idle state, field by field. -/
theorem observe_words {s : State} (hb : s.busy = false) :
    (observe s).status = statusWord s ∧
    (observe s).din.map BitVec.toNat = arrayWords s.din 2 ∧
    (observe s).dout.map BitVec.toNat = arrayWords s.dout 2 ∧
    (observe s).expWindow.map BitVec.toNat = arrayWords s.exp 64 ∧
    (observe s).logWindow.map BitVec.toNat = arrayWords s.log 64 ∧
    (observe s).skWindow.map BitVec.toNat = arrayWords s.sk 54 := by
  refine ⟨rfl, ?_, ?_, ?_, ?_, ?_⟩ <;> refine readWords_eq_arrayWords (by decide) (by decide) fun k hk addr hr => ?_
  · rw [hostRead_din (hr.trans (regionAt_dinWord hk))]
  · rw [hostRead_dout hb (hr.trans (regionAt_doutWord hk))]
  · rw [hostRead_exp hb (hr.trans (regionAt_expWord hk))]
  · rw [hostRead_log hb (hr.trans (regionAt_logWord hk))]
  · rw [hostRead_sk hb (hr.trans (regionAt_skWord hk))]

end Sys2Proof.Machine
end

section
/-! The state of the engine (spec/10_state.md): the statements settled. -/

namespace Sys2Proof.Proofs

open Sys2Proof.Machine

/-- Settles O33: each turn's operation keeps the invariant (`EngineInv.step`). -/
theorem stepKeepsInvariant : Obligations.StepKeepsInvariant := fun _ _ h ht => h.step ht

/-- Settles O10: the host turns keep the architectural state (`stepsTo_hostTurns`), and the engine's turn reads nothing else. -/
theorem delayedCompletionSameResult : Obligations.DelayedCompletionSameResult := by
  intro k s s' t rest hb hsched hsteps ht
  obtain ⟨harch, hrest⟩ := stepsTo_hostTurns hb hsched hsteps
  have hstep : step s' = engineTurn s'.takeTurn := by simp [step, turn, nextTurn, hrest]
  rw [hstep]
  exact engineTurn_congr (s' := s'.takeTurn) harch ht

/-- Settles O18: the bits by `statusWord_fields`, the accesses by the region that 0x004 names. -/
theorem statusLayout : Obligations.StatusLayout :=
  ⟨statusWord_fields,
    fun _ _ _ h => have hr := region_of_offset h
      ⟨hostWrite_status hr, hostRead_status hr⟩,
    by decide⟩

/-- Settles O19: the write and the read go through R56's packing, and no command's frame holds DIN. -/
theorem dinReadsBackAsWritten : Obligations.DinReadsBackAsWritten := by
  refine ⟨fun a b v s hb hab => ?_, fun s t h => ?_, fun i => rd_zeros 8 i⟩
  · rcases hab with ⟨ha, hb'⟩ | ⟨ha, hb'⟩
    · exact hostRead_hostWrite_din (n := 0) (m := 1) hb (region_of_offset ha) (region_of_offset hb') (by omega) (by omega)
    · exact hostRead_hostWrite_din (n := 1) (m := 0) hb (region_of_offset ha) (region_of_offset hb') (by omega) (by omega)
  · rcases h with h | h <;>
    · obtain ⟨-, -, -, -, -, hdin⟩ := exec_frame h
      exact hdin

/-- Settles O20: both outcomes of KEYEXP go through `State.clearKeys` (R127). -/
theorem keyIsWriteOnlyAndConsumed : Obligations.KeyIsWriteOnlyAndConsumed := by
  refine ⟨fun addr s ⟨n, hn, ha⟩ => ?_, fun n addr v s hn ha hb b hb4 => ?_, fun klen rounds s => ?_, fun i => rd_zeros 16 i⟩
  · exact hostRead_key ((region_of_offset ha).trans (regionAt_keyWord hn))
  · rw [hostWrite_key hb ((region_of_offset ha).trans (regionAt_keyWord hn))]
    exact rd_setWord_byte _ n b v (by omega) hb4
  · cases hc : keyexpChecks s.tblValid klen rounds with
    | error c => exact ⟨_, exec_keyexp_error hc, fun i => rd_zeros 16 i⟩
    | ok r => exact ⟨_, exec_keyexp_ok hc, fun i => rd_zeros 16 i⟩

/-- Settles O21: no region's value is built from the key, the scratch or the working registers; where BUSY = 1 the regions that
draw a free value are left out. -/
theorem readsRevealNoKey : Obligations.ReadsRevealNoKey := by
  intro addr s key k1 k2 ra rb l idx rc e gi hread
  have hidle : (region addr).unspecified = true → s.busy = false := fun hr =>
    hread.resolve_right (not_not.mpr (unspecifiedWhileBusy_of_region hr))
  cases hr : region addr <;> simp only [hr, Region.unspecified] at hidle
  case cmd | key | din | reserved => simp only [hostRead, hr]
  case status => rw [hostRead_status hr, hostRead_status hr]; rfl
  case dout | expWin | logWin | skWin => simp [hostRead, hr, readWhenIdle, hidle]

/-- Settles O26: a host turn keeps BUSY or accepts, and an idle engine turn keeps it. -/
theorem busyChangesOnlyByHandshake : Obligations.BusyChangesOnlyByHandshake := by
  refine ⟨fun addr v s hb ha => ?_, fun s t => engineTurn_busy_after, rfl, fun s t h hne => ?_⟩
  · rw [hostWrite_cmd hb (region_of_offset ha), State.accept_busy]
  · rcases step_cases h with ⟨hn, ht⟩ | ⟨-, -, rfl⟩ | ⟨hn, hb, -⟩ | ⟨hn, rfl⟩
    · rcases hostTurn_handshake ht with ⟨hb, -⟩ | ⟨hb, -, -, off, v, rest, hp, hr⟩
      · exact absurd hb hne
      · exact .inl ⟨hb, hn, off, v, rest, hp, offset_of_region_cmd hr⟩
    · exact absurd rfl hne
    · exact .inr (.inl ⟨hb, hn⟩)
    · exact .inr (.inr ⟨by simpa using hne.symm, hn⟩)

/-- Settles O27: TBLGEN sets the bit, no other completion clears it, and the tables are the invariant's. -/
theorem tblValidLife : Obligations.TblValidLife := by
  refine ⟨fun s => ⟨_, exec_tblgen s, rfl⟩, fun s t h hs ht => ?_, fun s t hinv h ht i hi => ?_⟩
  · have hne : t.tblValid ≠ s.tblValid := by simp [hs, ht]
    rcases step_changes State.tblValid (fun _ => rfl) hostTurn_tblValid h hne with hn | ⟨-, w, -, hc⟩
    · exact hn
    · cases hc with
      | tblgen => exact absurd ht (by simp)
      | keyexpFails | keyexpSucceeds | noSchedule | cipher | illegal => exact absurd rfl hne
  · obtain ⟨hexp, hlog⟩ := (hinv.step h).tables_built ht
    rw [hexp, hlog]
    refine ⟨(rd_builtExp hi).trans ?_, rd_builtLog hi⟩
    exact BitVec.eq_of_toNat_eq (by simp)

/-- Settles O28: KEYEXP's two outcomes, and no other completion touches the bit. -/
theorem schedValidLife : Obligations.SchedValidLife := by
  refine ⟨fun klen rounds s => ?_, rfl, fun s t h hne => ?_, fun s hs => ⟨_, exec_enc_noSchedule hs, rfl⟩,
    fun s hs => ⟨_, exec_dec_noSchedule hs, rfl⟩⟩
  · cases hc : keyexpChecks s.tblValid klen rounds with
    | error c => exact ⟨_, exec_keyexp_error hc, by simp [keyexpChecks_error_ne_ok hc]⟩
    | ok r => exact ⟨_, exec_keyexp_ok hc, by simp⟩
  · refine (step_changes State.schedValid (fun _ => rfl) hostTurn_schedValid h hne).imp_right ?_
    rintro ⟨hn, w, hp, hc⟩
    cases hc with
    | keyexpFails hd | keyexpSucceeds hd => exact ⟨hn, w, _, _, hp, hd⟩
    | tblgen | noSchedule | cipher | illegal => exact absurd rfl hne

/-- Settles O29: a host turn keeps ERR or accepts, and the other writers are completion and reset. -/
theorem errLife : Obligations.ErrLife := by
  refine ⟨fun addr v s hb ha => ?_, fun s t h hne => ?_, rfl, rfl, rfl, rfl, rfl, fun s => ?_⟩
  · rw [hostWrite_cmd hb (region_of_offset ha), State.accept_err]
  · rcases step_cases h with ⟨-, ht⟩ | ⟨-, -, rfl⟩ | ⟨hn, hb, w, -, hw⟩ | ⟨hn, -⟩
    · rcases hostTurn_handshake ht with ⟨-, he⟩ | ⟨hs, hb, he, -⟩
      · exact absurd he hne
      · exact .inl ⟨he, hb, hs⟩
    · exact absurd rfl hne
    · exact .inr (.inl ⟨hb, (completion_pend_busy hw).2, hn⟩)
    · exact .inr (.inr hn)
  · cases s.err <;> decide

/-- Settles O30: of the completions only a cipher's success writes DOUT. -/
theorem doutWrittenOnlyByCipher : Obligations.DoutWrittenOnlyByCipher := by
  refine ⟨fun addr s n hn ha hb => ?_, fun s t h hne => ?_, fun addr v s ha => ?_, fun i => rd_zeros 8 i⟩
  · rw [hostRead_dout hb ((region_of_offset ha).trans (regionAt_doutWord hn)), packWord_toNat]
  · refine (step_changes State.dout (fun _ => rfl) hostTurn_dout h hne).imp_right ?_
    rintro ⟨hn, w, hp, hc⟩
    cases hc with
    | cipher hd hs => exact ⟨hn, hs, rfl, w, hp, hd⟩
    | tblgen | keyexpFails | keyexpSucceeds | noSchedule | illegal => exact absurd rfl hne
  · rcases ha with ha | ha
    · exact hostWrite_dout (n := 0) (region_of_offset ha)
    · exact hostWrite_dout (n := 1) (region_of_offset ha)

/-- Settles O34: by the agent whose turn it is. -/
theorem stepAnswersFromInvariant : Obligations.StepAnswersFromInvariant := by
  refine ⟨fun s f h => ?_, fun s h hruns => ?_⟩
  · cases hn : nextTurn s with
    | host => simpa [step, turn, hn] using hostTurn_ne_fault s.takeTurn f
    | engine =>
      obtain ⟨t, ht⟩ := h.takeTurn.engineTurn_answers
      simp [step, turn, hn, ht]
    | reset => simp [step, turn, hn, resetTurn]
  · cases hn : nextTurn s with
    | host => simpa [Answers, step, turn, hn] using hostTurn_answers (s := s.takeTurn) hruns
    | engine => simpa [Answers, step, turn, hn] using h.takeTurn.engineTurn_answers
    | reset => exact ⟨s.takeTurn.engineReset, by simp [step, turn, hn, resetTurn]⟩

/-- Settles O42: a failure drops the schedule, a success replaces it (`expandKey_replaces`). -/
theorem keyexpReplacesSchedule : Obligations.KeyexpReplacesSchedule := by
  intro klen rounds s sk r b
  cases hc : keyexpChecks s.tblValid klen rounds with
  | error c => rw [exec_keyexp_error hc, exec_keyexp_error (s := { s with sk := sk, rounds := r, schedValid := b }) hc]; rfl
  | ok n =>
    rw [exec_keyexp_ok hc, exec_keyexp_ok (s := { s with sk := sk, rounds := r, schedValid := b }) hc]
    simp only [expandKey_replaces s.exp s.key klen n sk s.sk]
    rfl

/-- Settles O60: an ended run is idle, where a read shows its region's word and the architectural state alone. -/
theorem observationOfEndedRun : Obligations.ObservationOfEndedRun := by
  refine ⟨runEnded_iff, fun s hs => observe_words ((runEnded_iff s).mp hs).2, fun s s' hs hs' harch => ?_⟩
  rw [observe_arch ((runEnded_iff s).mp hs).2, observe_arch ((runEnded_iff s').mp hs').2, harch]

/-- Settles O32: the state after reset is what a reset turn leaves of itself. -/
theorem invariantHoldsAtReset : Obligations.InvariantHoldsAtReset :=
  EngineInv.engineReset (s := State.reset) List.Pairwise.nil

/-- Settles O58: the bound is the invariant's, the faults are the model's stops for a reserved count. -/
theorem reservedRoundsUnreachable : Obligations.ReservedRoundsUnreachable := by
  refine ⟨fun s h => ⟨h.rounds_le, fun hr => ?_⟩, fun s hs hr => ⟨exec_enc_reserved hs hr, exec_dec_reserved hs hr⟩⟩
  cases hs : s.schedValid with
  | false => rfl
  | true =>
    obtain ⟨-, hpos, -⟩ := h.sched_rounds hs
    simp [hr] at hpos

end Sys2Proof.Proofs
end

section
/-! The host port, offset by offset (spec/20_memory.md): the offset behind each region, what a read or a write of a region does beyond
the rules above, the packing of R56 byte by byte, and what of the internal memories a step changes (R69). -/

namespace Sys2Proof.Machine

open Sys2Proof.Spec

section
variable {addr : Addr} {n : Nat} {v : Word} {s : State}

/-- R51: STATUS stands at offset 0x004 alone. -/
theorem offset_of_region_status (h : region addr = .status) : offsetOf addr = 0x004 := by
  rw [region_of_offset rfl] at h
  unfold regionAt at h
  split_ifs at h with _ h4
  exact h4

/-- R51: the offsets of KEY. -/
theorem offset_of_region_key (h : region addr = .key n) : 0x010 ≤ offsetOf addr ∧ offsetOf addr ≤ 0x01C := by
  rw [region_of_offset rfl] at h
  unfold regionAt at h
  split_ifs at h with _ _ hkey
  exact hkey

/-- R51: the offsets of DIN. -/
theorem offset_of_region_din (h : region addr = .din n) : offsetOf addr = 0x020 ∨ offsetOf addr = 0x024 := by
  rw [region_of_offset rfl] at h
  unfold regionAt at h
  split_ifs at h with _ _ _ hdin
  simp only [offsetOf] at *
  omega

/-- R51, R52: a reserved offset names nothing. -/
theorem region_of_reservedOffset (h : reservedOffset (offsetOf addr)) : region addr = .reserved := by
  rw [region_of_offset rfl]
  unfold reservedOffset at h
  unfold regionAt
  iterate 8 rw [if_neg (by omega)]

/-- R54: the offsets whose reads are UNSPECIFIED while BUSY = 1 are those of the four regions. -/
theorem region_unspecified_iff : (region addr).unspecified = true ↔ unspecifiedWhileBusy (offsetOf addr) := by
  refine ⟨unspecifiedWhileBusy_of_region, fun h => ?_⟩
  rw [region_of_offset rfl]
  rcases h with h | h | h | h | h
  · rw [h]; rfl
  · rw [h]; rfl
  all_goals
    unfold regionAt
    split_ifs <;> first | rfl | omega

/-- R53: the region depends on address bits 11:2 alone. -/
theorem region_congr {a b : Addr} (h : a.toNat / 4 = b.toNat / 4) : region a = region b := by
  rw [region, region, wordOffset_eq, wordOffset_eq, h]

/-- R54: a read of DOUT or of a window while BUSY = 1 draws a free value. -/
theorem hostRead_unspecified (hb : s.busy = true) (hr : (region addr).unspecified = true) : hostRead addr s = s.drawWord := by
  cases h : region addr <;> rw [h] at hr
  case dout | expWin | logWin | skWin => simp only [hostRead, h, readWhenIdle, hb, if_true]
  case cmd | status | key | din | reserved => cases hr

/-- R54: every other read leaves the state. -/
theorem hostRead_keeps (h : s.busy = false ∨ (region addr).unspecified = false) : (hostRead addr s).2 = s := by
  cases hr : region addr <;> rw [hr] at h
  case cmd | status | key | din | reserved => simp only [hostRead, hr]
  case dout | expWin | logWin | skWin =>
    have hb : s.busy = false := h.resolve_right Bool.noConfusion
    simp [hostRead, hr, readWhenIdle, hb]

theorem hostRead_cmd (hr : region addr = .cmd) : hostRead addr s = (0, s) := by simp [hostRead, hr]

theorem hostRead_reserved (hr : region addr = .reserved) : hostRead addr s = (0, s) := by simp [hostRead, hr]

/-- R54: of the reads with a value while BUSY = 1, those outside STATUS and DIN give 0. -/
theorem hostRead_zero (hu : ¬ unspecifiedWhileBusy (offsetOf addr)) (h4 : offsetOf addr ≠ 0x004) (h20 : offsetOf addr ≠ 0x020)
    (h24 : offsetOf addr ≠ 0x024) : (hostRead addr s).1 = 0 := by
  rw [← region_unspecified_iff] at hu
  cases hr : region addr
  case cmd => rw [hostRead_cmd hr]
  case key => rw [hostRead_key hr]
  case reserved => rw [hostRead_reserved hr]
  case status => exact absurd (offset_of_region_status hr) h4
  case din => exact absurd (offset_of_region_din hr) (not_or.mpr ⟨h20, h24⟩)
  case dout | expWin | logWin | skWin => exact absurd (hr ▸ rfl) hu

/-- R55: outside CMD, KEY and DIN a write changes nothing. -/
theorem hostWrite_ignored (h0 : offsetOf addr ≠ 0) (h : offsetOf addr < 0x010 ∨ 0x024 < offsetOf addr) :
    hostWrite addr v s = s := by
  rcases hostWrite_cases addr v s with e | ⟨-, hr, -⟩ | ⟨-, n, hr, -⟩ | ⟨-, n, hr, -⟩
  · exact e
  · exact absurd (offset_of_region_cmd hr) h0
  · have := offset_of_region_key hr
    omega
  · have := offset_of_region_din hr
    omega

/-- R89: the host's turn at a `RD`. -/
theorem hostTurn_rd {x : HostName} {rest : List HostOp} (h : s.program = .rd addr x :: rest) :
    hostTurn s =
      .next { (hostRead addr s).2 with vars := assignName x (hostRead addr s).1 s.vars, program := rest } := by
  simp only [hostTurn, h, runHostOp]

/-- R89: the host's turn at a `WR` of a literal. -/
theorem hostTurn_wr_lit {rest : List HostOp} (h : s.program = .wr addr (.lit v) :: rest) :
    hostTurn s = .next { hostWrite addr v s with program := rest } := by
  simp only [hostTurn, h, runHostOp, evalHostVal]

/-- R53: the host's turn at an access narrower than 32 bits. -/
theorem hostTurn_narrow {width : NarrowWidth} {rest : List HostOp} (h : s.program = .narrow width addr :: rest) :
    hostTurn s = .refused .narrowAccess := by
  simp only [hostTurn, h, runHostOp]

end

/-- R56: byte `b` of a packed word. -/
theorem extractLsb'_packWord {m : Nat} (t : Bytes m) (n b : Nat) (hb : b < 4) :
    (packWord t n).extractLsb' (8 * b) 8 = rd t (4 * n + b) := by
  apply BitVec.eq_of_toNat_eq
  rw [BitVec.extractLsb'_toNat, packWord_toNat, littleEndian, Nat.shiftRight_eq_div_pow]
  interval_cases b
  · simp only [Nat.add_zero]
    omega
  all_goals omega

/-- R55, R56: a written word is the number its bytes make, and no byte outside it changes. -/
theorem setWord_spec {m : Nat} (t : Bytes m) (n : Nat) (w : Word) (h : 4 * n + 3 < m) :
    littleEndian (setWord t n w) n = w.toNat ∧ ∀ i, i / 4 ≠ n → rd (setWord t n w) i = rd t i := by
  refine ⟨by rw [← packWord_toNat, packWord_setWord_same t n w h], fun i hi => ?_⟩
  rw [setWord_rd t n w i h]
  iterate 4 rw [if_neg (by omega)]

/-- R158, R159, R188, R189: everything ENC and DEC can leave, a reserved round count being a fault. -/
theorem exec_cipher_cases {i : Instr} {s t : State} (hi : i = .enc ∨ i = .dec) (h : exec i s = .next t) :
    t = s.finish .noSchedule ∨ ∃ dout, t = ({ s.leaveDatapath with dout := dout }).finish .ok := by
  rcases hi with rfl | rfl <;>
  · simp only [exec, execEnc, execDec, raiseErr_eq, complete_eq] at h
    split_ifs at h
    · exact .inl (Host.Outcome.next.inj h).symm
    · exact .inr ⟨_, (Host.Outcome.next.inj h).symm⟩

/-- R69: no host turn writes SK. -/
theorem hostTurn_sk {s t : State} (h : hostTurn s = .next t) : t.sk = s.sk := by
  obtain ⟨_, _, _, _, _, _, _, _, rfl, -⟩ := hostTurn_frame h
  rfl

/-- R32: EXP and LOG together. -/
def State.tables (s : State) : Bytes 256 × Bytes 256 := (s.exp, s.log)

theorem State.tables_eq_iff {s t : State} : t.tables = s.tables ↔ t.exp = s.exp ∧ t.log = s.log := Prod.mk_inj

/-- R32: no host turn writes EXP or LOG. -/
theorem hostTurn_tables {s t : State} (h : hostTurn s = .next t) : t.tables = s.tables := by
  obtain ⟨_, _, _, _, _, _, _, _, rfl, -⟩ := hostTurn_frame h
  rfl

end Sys2Proof.Machine
end

section
/-! The host register space and the internal memories (spec/20_memory.md): the statements settled. -/

namespace Sys2Proof.Proofs

open Sys2Proof.Machine Sys2Proof.Spec

/-- Settles O13: each offset's region, then that region's read. -/
theorem hostReadMap : Obligations.HostReadMap := by
  intro addr s
  refine ⟨fun h => ?_, fun h => ?_, fun n hn h => ?_, fun n hn h => ?_, fun n hn h hb => ?_, fun n hn h hb => ?_,
    fun n hn h hb => ?_, fun n hn h hb => ?_, fun h => ?_, fun hb h => ?_, hostRead_state addr s⟩
  · rw [hostRead_cmd (region_of_offset h)]
  · rw [hostRead_status (region_of_offset h)]
  · rw [hostRead_key ((region_of_offset h).trans (regionAt_keyWord hn))]
  · rw [hostRead_din ((region_of_offset h).trans (regionAt_dinWord hn)), packWord_toNat]
  · rw [hostRead_dout hb ((region_of_offset h).trans (regionAt_doutWord hn)), packWord_toNat]
  · rw [hostRead_exp hb ((region_of_offset h).trans (regionAt_expWord hn)), packWord_toNat]
  · rw [hostRead_log hb ((region_of_offset h).trans (regionAt_logWord hn)), packWord_toNat]
  · rw [hostRead_sk hb ((region_of_offset h).trans (regionAt_skWord hn)), packWord_toNat]
  · rw [hostRead_reserved (region_of_reservedOffset h)]
  · have hu : unspecifiedWhileBusy (offsetOf addr) := by
      unfold unspecifiedWhileBusy
      rcases h with ⟨n, hn, h⟩ | ⟨n, hn, h⟩ | ⟨n, hn, h⟩ | ⟨n, hn, h⟩ <;> omega
    rw [hostRead_unspecified hb (region_unspecified_iff.mpr hu)]
    rfl

/-- Settles O14: a written KEY or DIN word by `setWord_spec`; outside CMD, KEY and DIN by `hostWrite_ignored`. -/
theorem hostWriteMap : Obligations.HostWriteMap := by
  refine fun addr v s => ⟨hostWrite_busy addr v, fun hb => ⟨fun h => ?_, fun n hn h => ?_, fun n hn h => ?_, fun h => ?_⟩⟩
  · exact hostWrite_cmd hb (region_of_offset h)
  · exact ⟨_, hostWrite_key hb ((region_of_offset h).trans (regionAt_keyWord hn)), setWord_spec s.key n v (by omega)⟩
  · exact ⟨_, hostWrite_din hb ((region_of_offset h).trans (regionAt_dinWord hn)), setWord_spec s.din n v (by omega)⟩
  · unfold reservedOffset at h
    exact hostWrite_ignored (by omega) (by omega)

/-- Settles O15: a read and a write see the address only through its region (`region_congr`). -/
theorem addressLowBitsIgnored : Obligations.AddressLowBitsIgnored := by
  refine ⟨fun a b h s => ?_, fun s width a rest hp => hostTurn_narrow hp⟩
  have hr : region a = region b := region_congr h
  exact ⟨by simp only [hostRead, hr], fun v => by simp only [hostWrite, hr]⟩

/-- Settles O16: a reserved offset names no region with a value or an effect, and a full-width operation always answers. -/
theorem reservedOffsetsInert : Obligations.ReservedOffsetsInert := by
  refine ⟨fun addr v s h => ⟨hostRead_reserved (region_of_reservedOffset h), ?_⟩, fun addr v x s rest hp => ?_⟩
  · unfold reservedOffset at h
    exact hostWrite_ignored (by omega) (by omega)
  · rcases hp with hp | hp
    · exact ⟨_, hostTurn_rd hp⟩
    · exact ⟨_, hostTurn_wr_lit hp⟩

/-- Settles O17: the read by `extractLsb'_packWord`, the write by `rd_setWord_byte`. -/
theorem littleEndianPacking : Obligations.LittleEndianPacking :=
  fun _ t n b hb => ⟨extractLsb'_packWord t n b hb, fun hn w => rd_setWord_byte t n b w hn hb⟩

/-- Settles O22: the regions that draw a free value are those at the UNSPECIFIED offsets (`region_unspecified_iff`). -/
theorem unspecifiedReads : Obligations.UnspecifiedReads := by
  refine fun addr s => ⟨fun hb => hostRead_keeps (.inl hb), fun hb hu => ?_,
    fun _ hu => ⟨?_, fun h => ?_, fun h => ?_, fun h => ?_, ?_⟩⟩
  · exact hostRead_unspecified hb (region_unspecified_iff.mpr hu)
  · exact hostRead_keeps (.inr (Bool.eq_false_iff.mpr (mt region_unspecified_iff.mp hu)))
  · rw [hostRead_status (region_of_offset h)]
  · rw [hostRead_din (n := 0) (region_of_offset h), packWord_toNat]
  · rw [hostRead_din (n := 1) (region_of_offset h), packWord_toNat]
  · exact hostRead_zero hu

/-- Settles O31: of the completions only those of KEYEXP write SK, and only that of TBLGEN writes EXP and LOG. -/
theorem internalMemoriesWriters : Obligations.InternalMemoriesWriters := by
  refine ⟨fun s t h => ?_, fun s t h hne => ?_, fun s t h hne => ?_, fun i => ⟨rd_zeros 216 i, rd_zeros 256 i, rd_zeros 256 i⟩⟩
  · have hcases : t = s.finish .noSchedule ∨ ∃ dout, t = ({ s.leaveDatapath with dout := dout }).finish .ok :=
      h.elim (exec_cipher_cases (.inl rfl)) (exec_cipher_cases (.inr rfl))
    rcases hcases with rfl | ⟨dout, rfl⟩ <;> exact ⟨rfl, rfl, rfl, rfl, rfl⟩
  · refine (step_changes State.sk (fun _ => rfl) hostTurn_sk h hne).imp_right ?_
    rintro ⟨hn, w, hp, hc⟩
    cases hc with
    | keyexpFails hd | keyexpSucceeds hd => exact ⟨hn, w, _, _, hp, hd⟩
    | tblgen | noSchedule | cipher | illegal => exact absurd rfl hne
  · have hne' : t.tables ≠ s.tables := by rwa [Ne, State.tables_eq_iff, not_and_or]
    refine (step_changes State.tables (fun _ => rfl) hostTurn_tables h hne').imp_right ?_
    rintro ⟨hn, w, hp, hc⟩
    cases hc with
    | tblgen hd => exact ⟨hn, w, hp, hd⟩
    | keyexpFails | keyexpSucceeds | noSchedule | cipher | illegal => exact absurd rfl hne'

end Sys2Proof.Proofs
end

section
/-! The command word by arithmetic (R81, R82): each field as a number, the decoder by the OP field, and the encoder's words. -/

namespace Sys2Proof

open Sys2Proof.Spec

section
variable {w v : Word}

/-- R81: OP, by arithmetic. -/
theorem fieldOp_toNat (w : Word) : (fieldOp w).toNat = op w := by
  simp only [fieldOp, op, BitVec.extractLsb'_toNat, Nat.shiftRight_zero]

/-- R81: KLEN, by arithmetic. -/
theorem fieldKlen_toNat (w : Word) : (fieldKlen w).toNat = w.toNat / 2 ^ 24 := by
  have := w.isLt
  simp only [fieldKlen, BitVec.extractLsb'_toNat, Nat.shiftRight_eq_div_pow]
  omega

/-- R81: RREQ, by arithmetic. -/
theorem fieldRreq_toNat (w : Word) : (fieldRreq w).toNat = w.toNat / 2 ^ 16 % 2 ^ 8 := by
  simp only [fieldRreq, BitVec.extractLsb'_toNat, Nat.shiftRight_eq_div_pow]

/-- R81: RSEL, by arithmetic. -/
theorem fieldRsel_eq_true_iff (w : Word) : fieldRsel w = true ↔ w.toNat / 2 ^ 8 % 2 = 1 := by
  rw [fieldRsel, BitVec.getLsbD, Nat.testBit_eq_decide_div_mod_eq, decide_eq_true_iff]

/-- R83: the round count a KEYEXP word supplies, by arithmetic. -/
theorem fieldRounds_eq (w : Word) :
    fieldRounds w = if w.toNat / 2 ^ 8 % 2 = 1 then some (w.toNat / 2 ^ 16 % 2 ^ 8) else none := by
  simp only [fieldRounds, fieldRsel_eq_true_iff, fieldRreq_toNat]

/-- The OP field is a given opcode exactly where `op` is its number. -/
theorem fieldOp_eq_iff (w : Word) (c : BitVec 4) : fieldOp w = c ↔ op w = c.toNat := by
  rw [← fieldOp_toNat, BitVec.toNat_inj]

theorem decode_tblgen (h : op w = 1) : decode w = .ok .tblgen := by
  simp [decode, fieldOp_eq_iff, h]

theorem decode_keyexp (h : op w = 2) :
    decode w = .ok (.keyexp (w.toNat / 2 ^ 24)
      (if w.toNat / 2 ^ 8 % 2 = 1 then some (w.toNat / 2 ^ 16 % 2 ^ 8) else none)) := by
  simp only [decode, fieldOp_eq_iff, h, fieldKlen_toNat, fieldRounds_eq]
  rfl

theorem decode_enc (h : op w = 3) : decode w = .ok .enc := by
  simp [decode, fieldOp_eq_iff, h]

theorem decode_dec (h : op w = 4) : decode w = .ok .dec := by
  simp [decode, fieldOp_eq_iff, h]

theorem decode_illegal (h : illegalOp w) : decode w = .error (.illegalOp (fieldOp w)) := by
  have hne : ∀ k, 1 ≤ k → k ≤ 4 → op w ≠ k := by
    unfold illegalOp at h
    omega
  simp [decode, fieldOp_eq_iff, hne]

/-- R82, R87: the five outcomes of the decoder, by OP. -/
theorem op_cases (w : Word) : op w = 1 ∨ op w = 2 ∨ op w = 3 ∨ op w = 4 ∨ illegalOp w := by
  unfold illegalOp
  omega

/-- R82: a decoded instruction is the one its word's OP names. -/
theorem opcodeOf_of_decode {i : Instr} (h : decode w = .ok i) : opcodeOf i = fieldOp w := by
  unfold decode at h
  split_ifs at h with h1 h2 h3 h4 <;> cases h
  · exact h1.symm
  · exact h2.symm
  · exact h3.symm
  · exact h4.symm

/-- R82, R86: a word decodes to a command exactly where its OP is legal. -/
theorem exists_decode_ok_iff (w : Word) : (∃ i, decode w = .ok i) ↔ ¬ illegalOp w := by
  refine ⟨fun ⟨i, hi⟩ hw => ?_, fun hw => ?_⟩
  · rw [decode_illegal hw] at hi
    cases hi
  · rcases op_cases w with h | h | h | h | h
    · exact ⟨_, decode_tblgen h⟩
    · exact ⟨_, decode_keyexp h⟩
    · exact ⟨_, decode_enc h⟩
    · exact ⟨_, decode_dec h⟩
    · exact absurd h hw

theorem illegalOp_congr (h : op v = op w) : illegalOp v ↔ illegalOp w := by
  simp only [illegalOp, h]

/-- R81: TBLGEN, ENC and DEC read only OP. -/
theorem decode_congr_of_op (h : op v = op w) (hw : op w = 1 ∨ op w = 3 ∨ op w = 4) : decode v = decode w := by
  rcases hw with hw | hw | hw
  · rw [decode_tblgen hw, decode_tblgen (h.trans hw)]
  · rw [decode_enc hw, decode_enc (h.trans hw)]
  · rw [decode_dec hw, decode_dec (h.trans hw)]

/-- R87: KEYEXP reads OP, bit 8 and bits 31:16 alone. -/
theorem decode_congr_of_keyexp (hv : op v = 2) (hw : op w = 2) (hhigh : v.toNat / 2 ^ 16 = w.toNat / 2 ^ 16)
    (hrsel : v.toNat / 2 ^ 8 % 2 = w.toNat / 2 ^ 8 % 2) : decode v = decode w := by
  have hklen : v.toNat / 2 ^ 24 = w.toNat / 2 ^ 24 := by omega
  rw [decode_keyexp hv, decode_keyexp hw, hklen, hhigh, hrsel]

end

/-- A field written at bit `k`, above what the lower bits hold, adds to the number. -/
theorem toNat_shiftLeft_or {x k : Nat} {y : Word} (hx : x * 2 ^ k < 2 ^ 32) (hy : y.toNat < 2 ^ k) :
    (BitVec.ofNat 32 x <<< k ||| y).toNat = x * 2 ^ k + y.toNat := by
  have hx' : x < 2 ^ 32 := lt_of_le_of_lt (Nat.le_mul_of_pos_right x (Nat.two_pow_pos k)) hx
  rw [BitVec.toNat_or, BitVec.toNat_shiftLeft, BitVec.toNat_ofNat, Nat.mod_eq_of_lt hx', Nat.shiftLeft_eq,
    Nat.mod_eq_of_lt hx, ← Nat.shiftLeft_eq, ← Nat.shiftLeft_add_eq_or_of_lt hy]

/-- R88: the word of `KEYEXP klen`, as a number. -/
theorem encode_keyexp_none_toNat {klen : Nat} (hk : klen ≤ 255) :
    (encode (.keyexp klen none)).toNat = klen * 2 ^ 24 + 2 :=
  toNat_shiftLeft_or (by omega) (by decide)

/-- R88: the word of `KEYEXP klen, rounds`, as a number. -/
theorem encode_keyexp_some_toNat {klen rounds : Nat} (hk : klen ≤ 255) (hr : rounds ≤ 255) :
    (encode (.keyexp klen (some rounds))).toNat = klen * 2 ^ 24 + rounds * 2 ^ 16 + 0x102 := by
  have hlow : (BitVec.ofNat 32 rounds <<< 16 ||| 0x102#32).toNat = rounds * 2 ^ 16 + 0x102 :=
    toNat_shiftLeft_or (by omega) (by decide)
  have hgroup : encode (.keyexp klen (some rounds)) =
      BitVec.ofNat 32 klen <<< 24 ||| (BitVec.ofNat 32 rounds <<< 16 ||| 0x102#32) := by
    simp only [encode, BitVec.or_assoc]
    rfl
  rw [hgroup, toNat_shiftLeft_or (by omega) (by omega), hlow]
  omega

/-- R81, R83, R88: a KEYEXP within its bounds comes back from its word. -/
theorem decode_encode_keyexp {klen : Nat} {rounds : Option Nat} (hk : klen ≤ 255) (hr : ∀ r ∈ rounds, r ≤ 255) :
    decode (encode (.keyexp klen rounds)) = .ok (.keyexp klen rounds) := by
  cases rounds with
  | none =>
    have hw := encode_keyexp_none_toNat hk
    rw [decode_keyexp (by rw [op, hw]; omega), hw, if_neg (by omega)]
    congr
    omega
  | some r =>
    have hr' : r ≤ 255 := hr r rfl
    have hw := encode_keyexp_some_toNat hk hr'
    rw [decode_keyexp (by rw [op, hw]; omega), hw, if_pos (by omega)]
    congr <;> omega

/-- R84, R85, R88: what the assembler takes of a KEYEXP. -/
theorem wellFormed_keyexp_iff (klen : Nat) (rounds : Option Nat) :
    (Instr.keyexp klen rounds).wellFormed = true ↔ klen ≤ 255 ∧ ∀ r ∈ rounds, r ≤ 255 := by
  cases rounds <;> simp [Instr.wellFormed, Instr.klenFits, Instr.roundsFit]

/-- R88: every instruction the assembler takes comes back from its word. -/
theorem decode_encode {i : Instr} (h : i.wellFormed = true) : decode (encode i) = .ok i := by
  cases i with
  | tblgen => exact decode_tblgen rfl
  | keyexp klen rounds =>
    obtain ⟨hk, hr⟩ := (wellFormed_keyexp_iff klen rounds).mp h
    exact decode_encode_keyexp hk hr
  | enc => exact decode_enc rfl
  | dec => exact decode_dec rfl

/-- R88: a word known to be an instruction's encoding decodes to it. -/
theorem decode_of_encode {i : Instr} {w : Word} (h : i.wellFormed = true) (hw : encode i = w) : decode w = .ok i :=
  hw ▸ decode_encode h

/-- R88: an assembled word, by its number. -/
theorem assemble_eq_ofNat {i : Instr} {n : Nat} (h : i.wellFormed = true) (hn : (encode i).toNat = n) :
    assemble i = some (BitVec.ofNat 32 n) := by
  rw [assemble, if_pos h, ← hn, BitVec.ofNat_toNat, BitVec.setWidth_eq]

end Sys2Proof
end

section
/-! Commands and the host's operations by their words (R86, R87, R89): completion up to the ignored bits, each operation's turn, and the
key bytes LDKEY fills in. -/

namespace Sys2Proof.Machine

open Sys2Proof.Spec

/-- R87: what completes depends on the word through the decoder, and all illegal words complete alike. -/
theorem completion_congr {w v : Word} (h : decode w = decode v ∨ (illegalOp w ∧ illegalOp v)) (s : State) :
    completion w s = completion v s := by
  rcases h with h | ⟨hw, hv⟩
  · rw [completion, completion, h]
  · rw [completion_error s (decode_illegal hw), completion_error s (decode_illegal hv)]

section
variable {s : State} {x : HostName} {rest : List HostOp}

/-- R89: the host's turn at a `WR` of a name that has a value. -/
theorem hostTurn_wr_var {off : Addr} {w : Word} (h : s.program = .wr off (.var x) :: rest) (hx : lookupName x s.vars = some w) :
    hostTurn s = .next { hostWrite off w s with program := rest } := by
  simp only [hostTurn, h, runHostOp, evalHostVal, hx]

/-- Log 3: the host's turn at a `WR` of a name without a value. -/
theorem hostTurn_wr_unbound {off : Addr} (h : s.program = .wr off (.var x) :: rest) (hx : lookupName x s.vars = none) :
    hostTurn s = .refused .unboundName := by
  simp only [hostTurn, h, runHostOp, evalHostVal, hx]

/-- R89: the host's turn at a `POLL` reads STATUS, and stays while BUSY = 1. -/
theorem hostTurn_poll (h : s.program = .poll x :: rest) :
    hostTurn s = .next { s with
      vars := assignName x (statusWord s) s.vars
      program := if s.busy = true then .poll x :: rest else rest } := by
  have hread : hostRead 0x004 s = (statusWord s, s) := hostRead_status rfl
  obtain ⟨hbusy, -⟩ := statusWord_fields s
  simp only [hostTurn, h, runHostOp, hread, hbusy]

end

/-- R89: 'A LDKEY with fewer than 16 bytes fills the missing bytes with 0.' -/
theorem expandHost_ldkey_padded {ks : List Byte} (h : ks.length ≤ 16) :
    expandHost (.ldkey (ks ++ List.replicate (16 - ks.length) 0)) = expandHost (.ldkey ks) := by
  have hbyte : ∀ i, (ks ++ List.replicate (16 - ks.length) 0).getD i 0 = ks.getD i 0 := by
    intro i
    rcases Nat.lt_or_ge i ks.length with hi | hi
    · exact List.getD_append _ _ _ _ hi
    · rw [List.getD_append_right _ _ _ _ hi, List.getD_eq_getElem?_getD, List.getElem?_getD_replicate_default_eq,
        List.getD_eq_default _ _ hi]
  have hlen : ¬ 16 < (ks ++ List.replicate (16 - ks.length) (0 : Byte)).length := by
    rw [List.length_append, List.length_replicate]
    omega
  simp only [expandHost, hbyte, if_neg hlen, if_neg (Nat.not_lt.mpr h)]

/-- R89, R56: the block of two names holds their words, the first one's bytes first. -/
theorem blockOfNames_words {vars : List (HostName × Word)} {w0 w1 : HostName} {u v : Word} (hu : lookupName w0 vars = some u)
    (hv : lookupName w1 vars = some v) :
    ∃ n : Bytes 8, blockOfNames vars w0 w1 = some n ∧ littleEndian n 0 = u.toNat ∧ littleEndian n 1 = v.toNat := by
  refine ⟨setWord (setWord (zeros 8) 0 u) 1 v, by simp only [blockOfNames, hu, hv], ?_, ?_⟩
  · rw [← packWord_toNat, packWord_setWord_other _ 1 0 v (by decide) (by decide),
      packWord_setWord_same _ 0 u (by decide)]
  · rw [← packWord_toNat, packWord_setWord_same _ 1 v (by decide)]

end Sys2Proof.Machine
end

section
/-! The encoding of commands and the host's operations (spec/30_encoding.md): the statements settled. -/

namespace Sys2Proof.Proofs

open Sys2Proof.Machine Sys2Proof.Spec

/-- Settles O1: no operand within its bounds is cut, so the fields of the encoded word are the operands. -/
theorem decodeInvertsEncode : Obligations.DecodeInvertsEncode := fun _ h => decode_encode h

/-- Settles O2: the words by their numbers; the bounds are what `wellFormed` asks. -/
theorem assemblerWords : Obligations.AssemblerWords := by
  refine ⟨rfl, rfl, rfl, fun klen => ?_, fun klen rounds => ?_⟩
  · have hwf : (Instr.keyexp klen none).wellFormed = true ↔ klen ≤ 255 := by simp [wellFormed_keyexp_iff]
    split_ifs with hk
    · exact assemble_eq_ofNat (hwf.mpr hk) (encode_keyexp_none_toNat hk)
    · exact if_neg (mt hwf.mp hk)
  · have hwf : (Instr.keyexp klen (some rounds)).wellFormed = true ↔ klen ≤ 255 ∧ rounds ≤ 255 := by
      simp [wellFormed_keyexp_iff]
    split_ifs with h
    · exact assemble_eq_ofNat (hwf.mpr h) (encode_keyexp_some_toNat h.1 h.2)
    · exact if_neg (mt hwf.mp h)

/-- Settles O3: the decoder's branches by OP. -/
theorem opcodeSelectsCommand : Obligations.OpcodeSelectsCommand :=
  fun _ => ⟨decode_tblgen, fun h => ⟨_, _, decode_keyexp h⟩, decode_enc, decode_dec, fun h => ⟨_, decode_illegal h⟩⟩

/-- Settles O4: KEYEXP's fields by arithmetic (`decode_keyexp`). -/
theorem commandWordFields : Obligations.CommandWordFields :=
  fun _ => ⟨decode_keyexp, fun _ => decode_congr_of_op⟩

/-- Settles O5: OP decides the outcome, and the other fields are read for KEYEXP alone. -/
theorem ignoredBitsDoNotMatter : Obligations.IgnoredBitsDoNotMatter := by
  refine fun w v hop => ⟨fun hfields => completion_congr ?_, ?_, fun i j hi hj => ?_⟩
  · have hop_only : op w = 1 ∨ op w = 3 ∨ op w = 4 → decode w = decode v := fun h => (decode_congr_of_op hop.symm h).symm
    rcases op_cases w with h | h | h | h | h
    · exact .inl (hop_only (.inl h))
    · obtain ⟨hhigh, hrsel⟩ := hfields h
      exact .inl (decode_congr_of_keyexp h (hop ▸ h) hhigh hrsel)
    · exact .inl (hop_only (.inr (.inl h)))
    · exact .inl (hop_only (.inr (.inr h)))
    · exact .inr ⟨h, (illegalOp_congr hop).mp h⟩
  · rw [exists_decode_ok_iff, exists_decode_ok_iff, illegalOp_congr hop]
  · rw [opcodeOf_of_decode hi, opcodeOf_of_decode hj, fieldOp_eq_iff, fieldOp_toNat, hop]

/-- Settles O23: one lemma per operation's turn; the expansions are `expandHost`'s own, LDKEY's padding apart. -/
theorem pseudoInstructionExpansions : Obligations.PseudoInstructionExpansions := by
  refine ⟨fun off v s rest h => hostTurn_wr_lit h,
    fun off x s rest h => ⟨fun w hx => hostTurn_wr_var h hx, hostTurn_wr_unbound h⟩,
    fun vars x y w => ⟨lookupName_assignName x w vars, lookupName_assignName_other w vars⟩,
    fun off x s rest h => hostTurn_rd h, fun s => rfl, fun x s rest h => hostTurn_poll h, fun cmd s => ?_,
    fun _ _ _ _ _ _ _ _ _ _ _ _ _ _ _ _ => rfl, fun ks h => (expandHost_ldkey_padded h).symm,
    fun _ _ _ _ _ _ _ _ => rfl, fun w0 w1 => rfl, fun w0 w1 => rfl, fun vars w0 w1 u v hu hv => blockOfNames_words hu hv⟩
  cases hwf : cmd.wellFormed <;> simp [expandHost, assemble, hwf]

/-- Settles O6: each example decodes because it is the encoding of its instruction, 0xFFFFFFF3 and 0x00000007 by their OP. -/
theorem encodingExamples : Obligations.EncodingExamples := by
  refine ⟨rfl, decode_of_encode rfl rfl, rfl, decode_of_encode rfl rfl, rfl, decode_of_encode rfl rfl, rfl, decode_of_encode rfl rfl,
    rfl, decode_of_encode rfl rfl, rfl, decode_of_encode rfl rfl, rfl, decode_of_encode rfl rfl, rfl, decode_of_encode rfl rfl,
    decode_enc rfl, decode_illegal (.inr (by decide)), fun s hs => ?_⟩
  have hc : keyexpChecks s.tblValid 8 (some 0) = .error .invalidRoundCount := by rw [hs]; rfl
  exact ⟨_, exec_keyexp_error hc, rfl⟩

/-- Settles O7: an illegal word is accepted as any word is, and completes as a decoding error. -/
theorem illegalWordCompletes : Obligations.IllegalWordCompletes := by
  refine fun w s hw => ⟨fun addr ha hb => hostWrite_cmd hb (region_of_offset ha), fun hb hp => ?_⟩
  exact (engineTurn_busy hb hp).trans (completion_error s (decode_illegal hw))

end Sys2Proof.Proofs
end

section
/-! The completion of TBLGEN (R103, R104) and the table law (R102), from what its loop builds. -/

namespace Sys2Proof.Machine

/-- R101, R104: every completion of TBLGEN leaves the tables built from the powers of 45. -/
theorem exec_tblgen_tables {s t : State} (h : exec .tblgen s = .next t) : t.exp = builtExp ∧ t.log = builtLog := by
  rw [exec_tblgen, Host.Outcome.next.injEq] at h
  subst h
  exact ⟨buildTables_exp _ _, buildTables_log _ _⟩

/-- R102: every value of [1, 256] is a power of 45 modulo 257; the byte it is cut to is an entry of EXP, and only 256 is cut. -/
theorem power_surj {v : Nat} (hpos : 1 ≤ v) (hle : v ≤ 256) : ∃ i < 256, 45 ^ i % 257 = v := by
  obtain ⟨i, hi, hbyte⟩ := powerByte_surj (Nat.mod_lt v (show 0 < 256 by decide))
  have := power_pos i
  have := Nat.mod_lt (45 ^ i) (show 257 > 0 by decide)
  simp only [powerByte] at hbyte
  exact ⟨i, hi, by omega⟩

/-- R102: the entries of EXP are distinct. -/
theorem builtExp_injOn {i j : Nat} (hi : i < 256) (hj : j < 256) (h : rd builtExp i = rd builtExp j) : i = j := by
  rw [rd_builtExp hi, rd_builtExp hj] at h
  apply powerByte_injOn hi hj
  simpa [powerByte] using congrArg BitVec.toNat h

/-- R101: the entry of EXP at a byte, as an index of LOG. -/
theorem lookup_builtExp_toNat (x : Byte) : (lookup builtExp x).toNat = powerByte x.toNat := by
  rw [lookup, rd_builtExp x.isLt, BitVec.toNat_ofNat]
  exact Nat.mod_eq_of_lt (powerByte_lt _)

/-- R102: `LOG[EXP[x]] = x`. -/
theorem lookup_builtLog_builtExp (x : Byte) : lookup builtLog (lookup builtExp x) = x := by
  rw [lookup, lookup_builtExp_toNat]
  exact (rd_builtLog x.isLt).trans (by simp)

/-- R102: `EXP[LOG[x]] = x`, as `x` is an entry of EXP. -/
theorem lookup_builtExp_builtLog (x : Byte) : lookup builtExp (lookup builtLog x) = x := by
  obtain ⟨i, hi, hx⟩ := powerByte_surj x.isLt
  have hentry : lookup builtExp (BitVec.ofNat 8 i) = x := by
    apply BitVec.eq_of_toNat_eq
    rw [lookup_builtExp_toNat, BitVec.toNat_ofNat, Nat.mod_eq_of_lt hi, hx]
  rw [← hentry, lookup_builtLog_builtExp]

end Sys2Proof.Machine
end

section
/-! The table generator (spec/40_table_generator.md): the statements settled. -/

namespace Sys2Proof.Proofs

open Sys2Proof.Machine

/-- Settles O35: the loop's invariant after its 256 iterations gives the tables, from any arrays. -/
theorem tblgenBuildsTables : Obligations.TblgenBuildsTables := by
  intro s
  have hbuilt := buildTables_tablesUpTo s.exp s.log
  exact ⟨_, _, _, _, _, exec_tblgen s, hbuilt.exp, hbuilt.log⟩

/-- Settles O36: the powers of 45 run through [1, 256] once, and EXP, injective on its indices, has each byte at one place. -/
theorem tableLaw : Obligations.TableLaw := by
  have hexp_zero : rd builtExp 0 = 1 := (rd_builtExp (by decide)).trans (by decide)
  have hexp_128 : rd builtExp 128 = 0 := (rd_builtExp (by decide)).trans (by decide)
  refine ⟨fun i hi => rd_builtExp hi, fun v hpos hle => ?_,
    fun x => ⟨lookup_builtLog_builtExp x, lookup_builtExp_builtLog x⟩, hexp_zero, hexp_128,
    rd_builtLog (i := 128) (by decide), rd_builtLog (i := 0) (by decide), (rd_builtExp (by decide)).trans (by decide),
    fun i hi h => builtExp_injOn hi (by decide) (h.trans hexp_128.symm),
    fun i hi h => builtExp_injOn hi (by decide) (h.trans hexp_zero.symm)⟩
  obtain ⟨i, hi, hv⟩ := power_surj hpos hle
  exact ⟨i, hi, hv, fun j hj hjv => power_injOn hj hi (hjv.trans hv.symm)⟩

/-- Settles O37: every completion leaves the built tables, which the invariant says a valid table already is. -/
theorem tblgenReissue : Obligations.TblgenReissue := by
  refine ⟨fun s s' t t' h h' => ?_, fun s t hinv hvalid h => ?_⟩
  · obtain ⟨hexp, hlog⟩ := exec_tblgen_tables h
    obtain ⟨hexp', hlog'⟩ := exec_tblgen_tables h'
    exact ⟨hexp.trans hexp'.symm, hlog.trans hlog'.symm⟩
  · obtain ⟨hexp, hlog⟩ := exec_tblgen_tables h
    obtain ⟨hexp', hlog'⟩ := hinv.tables_built hvalid
    exact ⟨hexp.trans hexp'.symm, hlog.trans hlog'.symm⟩

end Sys2Proof.Proofs
end

section
/-! KEYEXP's loops in closed form (R122 to R126): the accumulators after Step 2, their rotation, the bytes a round writes, and
with them every byte of an expanded key. -/

namespace Sys2Proof.Machine

open Sys2Proof.Spec

/-- R12: the model's rotation of a byte is the library's. -/
theorem rotl8_eq_rotateLeft (x : Byte) {n : Nat} (hn : n < 8) : rotl8 x n = x.rotateLeft n := by
  rw [rotl8, BitVec.rotateLeft_def, Nat.mod_eq_of_lt hn]

/-- Bit `i` of a byte rotated left by `n` is bit `i - n` modulo 8 of the byte. -/
theorem getLsbD_rotateLeft_mod (x : Byte) (n : Nat) {i : Nat} (hi : i < 8) :
    (x.rotateLeft n).getLsbD i = x.getLsbD ((i + 8 - n % 8) % 8) := by
  have hn := Nat.mod_lt n (show 8 > 0 by decide)
  rw [BitVec.getLsbD_rotateLeft, Bool.cond_decide]
  split_ifs with hin
  · congr 1
    omega
  · rw [decide_eq_true hi, Bool.true_and]
    congr 1
    omega

/-- Rotations of a byte add up. -/
theorem rotateLeft_rotateLeft (x : Byte) (m n : Nat) : (x.rotateLeft m).rotateLeft n = x.rotateLeft (m + n) := by
  apply BitVec.eq_of_getLsbD_eq
  intro i hi
  rw [getLsbD_rotateLeft_mod _ _ hi, getLsbD_rotateLeft_mod _ _ (Nat.mod_lt _ (by decide)), getLsbD_rotateLeft_mod _ _ hi]
  congr 1
  omega

/-- Bytes written one after the other from index `lo` on: `n` of them, the `j`-th one `v j`. -/
def writeRun {m : Nat} (lo : Nat) (v : Nat → Byte) : Nat → Bytes m → Bytes m
  | 0, t => t
  | n + 1, t => wr (writeRun lo v n t) (lo + n) (v n)

theorem rd_writeRun {m : Nat} (lo : Nat) (v : Nat → Byte) (t : Bytes m) (i : Nat) :
    ∀ n, lo + n ≤ m → rd (writeRun lo v n t) i = if lo ≤ i ∧ i < lo + n then v (i - lo) else rd t i := by
  intro n
  induction n with
  | zero => intro _; rw [if_neg (by omega)]; rfl
  | succ n ih =>
    intro hm
    rw [writeRun, rd_wr, ih (by omega)]
    by_cases hi : lo + n = i
    · rw [if_pos ⟨hi, by omega⟩, if_pos (by omega), show i - lo = n by omega]
    · rw [if_neg (fun h => hi h.1)]
      exact if_congr (by omega) rfl rfl

/-- A run of writes, read inside. -/
theorem rd_writeRun_add {m lo n j : Nat} (v : Nat → Byte) (t : Bytes m) (hm : lo + n ≤ m) (hj : j < n) :
    rd (writeRun lo v n t) (lo + j) = v j := by
  rw [rd_writeRun lo v t _ n hm, if_pos (by omega), Nat.add_sub_cancel_left]

/-- A run of writes, read below. -/
theorem rd_writeRun_below {m lo n i : Nat} (v : Nat → Byte) (t : Bytes m) (hm : lo + n ≤ m) (hi : i < lo) :
    rd (writeRun lo v n t) i = rd t i := by
  rw [rd_writeRun lo v t _ n hm, if_neg (by omega)]

/-- R123: an accumulator after `n` steps of Step 2: its lanes are the bytes of `f`, and lane 8 is their XOR. -/
structure Accumulated (f : Nat → Byte) (n : Nat) (acc : Bytes 9) : Prop where
  lane : ∀ i < n, rd acc i = f i
  parity : rd acc 8 = (List.range n).foldl (fun x i => x ^^^ f i) 0

theorem Accumulated.step {f : Nat → Byte} {n : Nat} {acc : Bytes 9} (h : Accumulated f n acc) (hn : n < 8) :
    Accumulated f (n + 1) (wr (wr acc n (f n)) 8 (rd acc 8 ^^^ f n)) where
  lane i hi := by
    rw [rd_wr_other _ _ (by omega), rd_wr]
    split_ifs with hni
    · rw [hni.1]
    · exact h.lane i (by omega)
  parity := by
    rw [rd_wr_same _ _ (by decide), h.parity, List.range_succ, List.foldl_append]
    rfl

/-- R123: KEYEXP's variables after `n` steps of Step 2. -/
structure InitUpTo (f g : Nat → Byte) (n : Nat) (w : KeyWork) : Prop where
  ra : Accumulated f n w.ra
  rb : Accumulated g n w.rb
  group0 : ∀ i < n, rd w.sk i = g i

theorem initLane_initUpTo {f g : Nat → Byte} {b1 b2 : Bytes 8} {n : Nat} {w : KeyWork} (h : InitUpTo f g n w) (hn : n < 8)
    (hf : rotl8 (rd b1 n) 5 = f n) (hg : rd b2 n = g n) : InitUpTo f g (n + 1) (initLane b1 b2 n w) where
  ra := by simpa only [initLane, Config.rotInit, hf] using h.ra.step hn
  rb := by simpa only [initLane, hg] using h.rb.step hn
  group0 i hi := by
    simp only [initLane, hg, rd_wr]
    split_ifs with hni
    · rw [hni.1]
    · exact h.group0 i (by omega)

theorem initWork_initUpTo {f g : Nat → Byte} {b1 b2 : Bytes 8} (sk : Bytes 216) (hf : ∀ i < 8, rotl8 (rd b1 i) 5 = f i)
    (hg : ∀ i < 8, rd b2 i = g i) : InitUpTo f g 8 (initWork b1 b2 sk) := by
  refine forUp_invariant (fun n w => n ≤ 8 → InitUpTo f g n w) (initLane b1 b2) 0 (fun n w h hn => ?_) 8 _ (fun _ => ?_) le_rfl
  · rw [Nat.zero_add]
    exact initLane_initUpTo (h (by omega)) hn (hf n hn) (hg n hn)
  · exact ⟨⟨nofun, rd_zeros 9 8⟩, ⟨nofun, rd_zeros 9 8⟩, nofun⟩

/-- R124: the first `n` bytes rotated left by 6, one after the other. -/
def rotateBytes {m : Nat} : Nat → Bytes m → Bytes m
  | 0, t => t
  | n + 1, t => wr (rotateBytes n t) n (rotl8 (rd (rotateBytes n t) n) 6)

theorem rd_rotateBytes {m : Nat} (t : Bytes m) (i : Nat) :
    ∀ n ≤ m, rd (rotateBytes n t) i = if i < n then (rd t i).rotateLeft 6 else rd t i := by
  intro n
  induction n with
  | zero => intro _; rfl
  | succ n ih =>
    intro hn
    rw [rotateBytes, rd_wr]
    by_cases hi : n = i
    · subst hi
      rw [if_pos ⟨rfl, hn⟩, if_pos (by omega), ih (by omega), if_neg (by omega), rotl8_eq_rotateLeft _ (by decide)]
    · rw [if_neg (fun h => hi h.1), ih (by omega)]
      exact if_congr (by omega) rfl rfl

/-- R124: Step 3a rotates both accumulators and touches nothing else. -/
theorem rotateAll_eq (w : KeyWork) : rotateAll w = { w with ra := rotateBytes 9 w.ra, rb := rotateBytes 9 w.rb } := by
  suffices h : ∀ n, forUp 0 n rotateLane w = { w with ra := rotateBytes n w.ra, rb := rotateBytes n w.rb } from h 9
  intro n
  induction n with
  | zero => rfl
  | succ n ih =>
    rw [forUp_succ_last, ih, Nat.zero_add]
    rfl

/-- R125: the first half of round `r` as a run of writes. -/
theorem emitRa_run (exp : Bytes 256) (r : Nat) (w : KeyWork) (n : Nat) :
    forUp 0 n (emitRa exp r) w = { w with
      sk := writeRun (roundBase r) (fun j => rd w.ra ((j + 2 * r - 1) % 9) + roundConst exp (18 * r + j + 1)) n w.sk } := by
  induction n with
  | zero => rfl
  | succ n ih =>
    rw [forUp_succ_last, ih, Nat.zero_add]
    rfl

/-- R125: the second half of round `r` as a run of writes. -/
theorem emitRb_run (exp : Bytes 256) (r : Nat) (w : KeyWork) (n : Nat) :
    forUp 0 n (emitRb exp r) w = { w with
      sk := writeRun (roundBase r + 8) (fun j => rd w.rb ((j + 2 * r) % 9) + roundConst exp (18 * r + j + 10)) n w.sk } := by
  induction n with
  | zero => rfl
  | succ n ih =>
    rw [forUp_succ_last, ih, Nat.zero_add]
    rfl

/-- R125: the round constants of rounds 1 to 13 have indices below 256. -/
theorem roundConst_eq_constant (exp : Bytes 256) {n : Nat} (hn : n < 256) : roundConst exp n = constant exp n := by
  simp [roundConst, constant, lookup, Nat.mod_eq_of_lt hn]

/-- R122: K1 byte by byte. -/
theorem rd_keyBlock1 (key : Bytes 16) (klen : Nat) {i : Nat} (hi : i < 8) : rd (keyBlock1 key klen) i = k1 key klen i := by
  rw [keyBlock1, rd_ofFn _ hi, k1]
  by_cases hk : klen ≤ 8
  · rw [if_pos hk]
  · rw [if_neg hk, if_pos (by omega)]

/-- R122: K2 byte by byte. -/
theorem rd_keyBlock2 (key : Bytes 16) (klen : Nat) {i : Nat} (hi : i < 8) : rd (keyBlock2 key klen) i = k2 key klen i := by
  rw [keyBlock2, k2]
  by_cases hk : klen ≤ 8
  · rw [if_pos hk, if_pos hk, rd_keyBlock1 key klen hi]
  · rw [if_neg hk, if_neg hk, rd_ofFn _ hi]
    rfl

/-- R123: Ra after Step 2. -/
theorem Accumulated.rd_eq_ra0 {key : Bytes 16} {klen : Nat} {acc : Bytes 9}
    (h : Accumulated (fun i => (k1 key klen i).rotateLeft 5) 8 acc) {i : Nat} (hi : i < 9) : rd acc i = ra0 key klen i := by
  obtain rfl | hne := eq_or_ne i 8
  · exact h.parity
  · rw [ra0.eq_2 _ _ _ hne]
    exact h.lane i (by omega)

/-- R123: Rb after Step 2. -/
theorem Accumulated.rd_eq_rb0 {key : Bytes 16} {klen : Nat} {acc : Bytes 9}
    (h : Accumulated (k2 key klen) 8 acc) {i : Nat} (hi : i < 9) : rd acc i = rb0 key klen i := by
  obtain rfl | hne := eq_or_ne i 8
  · exact h.parity
  · rw [rb0.eq_2 _ _ _ hne]
    exact h.lane i (by omega)

/-- R125: the store `sk` holds the 16 bytes of round `r`. -/
def HoldsRound (exp : Bytes 256) (key : Bytes 16) (klen r : Nat) (sk : Bytes 216) : Prop :=
  ∀ j < 8,
    rd sk (8 + 16 * (r - 1) + j) = (ra0 key klen ((j + 2 * r - 1) % 9)).rotateLeft (6 * r) + constant exp (18 * r + j + 1) ∧
    rd sk (8 + 16 * (r - 1) + 8 + j) = (rb0 key klen ((j + 2 * r) % 9)).rotateLeft (6 * r) + constant exp (18 * r + j + 10)

/-- R125: two stores that agree on the bytes of round `r` hold the round alike. -/
theorem HoldsRound.congr {exp : Bytes 256} {key : Bytes 16} {klen r : Nat} {sk sk' : Bytes 216}
    (h : HoldsRound exp key klen r sk) (hsk : ∀ i < 8 + 16 * (r - 1) + 16, rd sk' i = rd sk i) :
    HoldsRound exp key klen r sk' := fun j hj => by
  rw [hsk _ (by omega), hsk _ (by omega)]
  exact h j hj

/-- R123 to R125: KEYEXP's variables after `n` rounds. -/
structure ScheduleUpTo (exp : Bytes 256) (key : Bytes 16) (klen n : Nat) (w : KeyWork) : Prop where
  ra : ∀ i < 9, rd w.ra i = (ra0 key klen i).rotateLeft (6 * n)
  rb : ∀ i < 9, rd w.rb i = (rb0 key klen i).rotateLeft (6 * n)
  group0 : ∀ i < 8, rd w.sk i = k2 key klen i
  rounds : ∀ r, 1 ≤ r → r ≤ n → HoldsRound exp key klen r w.sk

/-- R123: before the first round. -/
theorem initWork_scheduleUpTo (exp : Bytes 256) (key : Bytes 16) (klen : Nat) (sk : Bytes 216) :
    ScheduleUpTo exp key klen 0 (initWork (keyBlock1 key klen) (keyBlock2 key klen) sk) := by
  have hinit := initWork_initUpTo (f := fun i => (k1 key klen i).rotateLeft 5) (g := k2 key klen) sk
    (fun i hi => by rw [rd_keyBlock1 key klen hi, rotl8_eq_rotateLeft _ (by decide)]) (fun i hi => rd_keyBlock2 key klen hi)
  have rotate_zero : ∀ x : Byte, x.rotateLeft (6 * 0) = x := by decide
  exact ⟨fun i hi => by rw [rotate_zero, hinit.ra.rd_eq_ra0 hi], fun i hi => by rw [rotate_zero, hinit.rb.rd_eq_rb0 hi],
    hinit.group0, fun r h1 h0 => by omega⟩

/-- R124, R125: one more round. -/
theorem keyRound_scheduleUpTo {exp : Bytes 256} {key : Bytes 16} {klen n : Nat} {w : KeyWork} (hn : n < 13)
    (h : ScheduleUpTo exp key klen n w) : ScheduleUpTo exp key klen (n + 1) (keyRound exp (n + 1) w) := by
  have hbase : roundBase (n + 1) = 8 + 16 * n := rfl
  rw [keyRound, rotateAll_eq, emitRa_run, emitRb_run, hbase]
  have hra : ∀ i < 9, rd (rotateBytes 9 w.ra) i = (ra0 key klen i).rotateLeft (6 * (n + 1)) := fun i hi => by
    rw [rd_rotateBytes _ _ _ le_rfl, if_pos hi, h.ra i hi, rotateLeft_rotateLeft, Nat.mul_succ]
  have hrb : ∀ i < 9, rd (rotateBytes 9 w.rb) i = (rb0 key klen i).rotateLeft (6 * (n + 1)) := fun i hi => by
    rw [rd_rotateBytes _ _ _ le_rfl, if_pos hi, h.rb i hi, rotateLeft_rotateLeft, Nat.mul_succ]
  refine ⟨hra, hrb, fun i hi => ?_, fun r hr1 hr => ?_⟩
  · rw [rd_writeRun_below _ _ (by omega) (by omega), rd_writeRun_below _ _ (by omega) (by omega), h.group0 i hi]
  · rcases Nat.lt_or_ge n r with hlast | hearlier
    · obtain rfl : r = n + 1 := by omega
      refine fun j hj => ⟨?_, ?_⟩
      · rw [Nat.add_sub_cancel, rd_writeRun_below _ _ (by omega) (by omega), rd_writeRun_add _ _ (by omega) hj,
          hra _ (Nat.mod_lt _ (by decide)), roundConst_eq_constant _ (by omega)]
      · rw [Nat.add_sub_cancel, rd_writeRun_add _ _ (by omega) hj, hrb _ (Nat.mod_lt _ (by decide)),
          roundConst_eq_constant _ (by omega)]
    · refine (h.rounds r hr1 hearlier).congr fun i hi => ?_
      rw [rd_writeRun_below _ _ (by omega) (by omega), rd_writeRun_below _ _ (by omega) (by omega)]

/-- R122 to R126: every byte of an expanded key for a round count of at most 13. -/
theorem expandKey_bytes (exp : Bytes 256) (key : Bytes 16) (klen : Nat) {n : Nat} (hn : n ≤ 13) (sk : Bytes 216) :
    (∀ i < 8, rd (expandKey exp key klen n sk) i = k2 key klen i) ∧
    (∀ r, 1 ≤ r → r ≤ n → HoldsRound exp key klen r (expandKey exp key klen n sk)) ∧
    ∀ i, 8 + 16 * n ≤ i → rd (expandKey exp key klen n sk) i = 0 := by
  have hloop := forUp_invariant (fun n w => n ≤ 13 → ScheduleUpTo exp key klen n w) (keyRound exp) 1
    (fun n w h hn => Nat.add_comm n 1 ▸ keyRound_scheduleUpTo (by omega) (h (by omega))) n _
    (fun _ => initWork_scheduleUpTo exp key klen sk) hn
  have hread : ∀ i < 8 + 16 * n, rd (expandKey exp key klen n sk) i =
      rd (forUp 1 n (keyRound exp) (initWork (keyBlock1 key klen) (keyBlock2 key klen) sk)).sk i := fun i hi => by
    rw [expandKey, rd_clearTail, if_neg (show ¬ Config.skLen n ≤ i from Nat.not_le.mpr hi)]
  refine ⟨fun i hi => ?_, fun r hr1 hr => ?_, rd_expandKey_tail exp key klen n sk⟩
  · rw [hread i (by omega), hloop.group0 i hi]
  · exact (hloop.rounds r hr1 hr).congr fun i hi => hread i (by omega)

end Sys2Proof.Machine
end

section
/-! KEYEXP's operands and outcomes (R121, R122, R127): what the checks answer, which key bytes take part, what KEYEXP leaves of the
key, and two KEYEXPs of the same key blocks. -/

namespace Sys2Proof.Machine

open Sys2Proof.Spec

section
variable {klen klen' i : Nat} {rounds rounds' : Option Nat} {key key' : Bytes 16} {s t : State}

/-- R121, R204: the failing checks, NO_TABLE first. -/
theorem keyexpChecks_error {tblValid : Bool} (h : tblValid = false ∨ rounds = some 0) :
    keyexpChecks tblValid klen rounds = .error (if tblValid = false then .noTable else .invalidRoundCount) := by
  cases tblValid with
  | false => rfl
  | true =>
    obtain rfl : rounds = some 0 := by simpa using h
    rfl

/-- R121: with tables and no supplied count, the count is the default for the key's length. -/
theorem keyexpChecks_default (hv : s.tblValid = true) :
    keyexpChecks s.tblValid klen none = .ok (if klen ≤ 8 then 8 else 10) := by
  rw [hv]
  rfl

/-- R121: with tables, a supplied count other than 0 is cut to 13. -/
theorem keyexpChecks_supplied {rreq : Nat} (hv : s.tblValid = true) (hr : rreq ≠ 0) :
    keyexpChecks s.tblValid klen (some rreq) = .ok (if 13 < rreq then 13 else rreq) := by
  have hmin : min rreq 13 = if 13 < rreq then 13 else rreq := by
    split_ifs <;> omega
  rw [hv, ← hmin]
  exact if_neg hr

/-- R121: with tables and no supplied 0 the checks pass. -/
theorem keyexpChecks_passes (hv : s.tblValid = true) (hr : rounds ≠ some 0) :
    ∃ r, keyexpChecks s.tblValid klen rounds = .ok r := by
  cases rounds with
  | none => exact ⟨_, keyexpChecks_default hv⟩
  | some rreq => exact ⟨_, keyexpChecks_supplied hv fun h => hr (h ▸ rfl)⟩

/-- R133: supplied counts of 13 and above are checked alike. -/
theorem keyexpChecks_clamp (tblValid : Bool) {rreq : Nat} (h : 13 ≤ rreq) :
    keyexpChecks tblValid klen (some rreq) = keyexpChecks tblValid klen (some 13) := by
  have hr : rreq ≠ 0 := by omega
  simp [keyexpChecks, resolveRounds, Config.maxRounds, hr, Nat.min_eq_right h]

/-- R121: the checks tell only keys of at most 8 bytes from longer ones. -/
theorem keyexpChecks_long (tblValid : Bool) (h : 8 < klen) (h' : 8 < klen') :
    keyexpChecks tblValid klen rounds = keyexpChecks tblValid klen' rounds := by
  cases rounds with
  | none => simp [keyexpChecks, resolveRounds, Nat.not_le.mpr h, Nat.not_le.mpr h']
  | some rreq => rfl

/-- R122: K1 reads key bytes below KLEN alone. -/
theorem k1_congr (h : ∀ i < min klen 16, rd key i = rd key' i) (hi : i < 8) : k1 key klen i = k1 key' klen i := by
  unfold k1
  split_ifs with hik
  · exact h i (by omega)
  · rfl

/-- R122: K2 reads key bytes below min(KLEN, 16) alone. -/
theorem k2_congr (h : ∀ i < min klen 16, rd key i = rd key' i) (hi : i < 8) : k2 key klen i = k2 key' klen i := by
  unfold k2
  split_ifs with hk hik
  · exact k1_congr h hi
  · exact h _ hik
  · rfl

/-- R122: K1 of a byte of the key. -/
theorem k1_of_lt (h : i < klen) : k1 key klen i = rd key i := if_pos h

/-- R122: K2 of a key of 8 bytes is K1. -/
theorem k2_of_short (h : klen ≤ 8) : k2 key klen i = k1 key klen i := if_pos h

/-- R122: K2 of a key of 16 bytes or more is the key's second half. -/
theorem k2_of_long (h : 16 ≤ klen) (hi : i < 8) : k2 key klen i = rd key (8 + i) := by
  rw [k2, if_neg (by omega), if_pos (by omega)]

/-- R122: KEYEXP takes from the key and its length nothing but the two key blocks and the checks. -/
theorem exec_keyexp_congr (hc : keyexpChecks s.tblValid klen rounds = keyexpChecks s.tblValid klen' rounds')
    (hkey : ∀ i < 8, k1 s.key klen i = k1 key klen' i ∧ k2 s.key klen i = k2 key klen' i) :
    exec (.keyexp klen rounds) s = exec (.keyexp klen' rounds') { s with key := key } := by
  have h1 : keyBlock1 s.key klen = keyBlock1 key klen' := bytes_ext fun i hi => by
    rw [rd_keyBlock1 _ _ hi, rd_keyBlock1 _ _ hi, (hkey i hi).1]
  have h2 : keyBlock2 s.key klen = keyBlock2 key klen' := bytes_ext fun i hi => by
    rw [rd_keyBlock2 _ _ hi, rd_keyBlock2 _ _ hi, (hkey i hi).2]
  cases hr : keyexpChecks s.tblValid klen rounds with
  | error c =>
    rw [exec_keyexp_error hr, exec_keyexp_error (s := { s with key := key }) (hc ▸ hr)]
    rfl
  | ok r =>
    rw [exec_keyexp_ok hr, exec_keyexp_ok (s := { s with key := key }) (hc ▸ hr)]
    simp only [expandKey, h1, h2]
    rfl

/-- R127, R32: every KEYEXP clears the key and keeps the tables. -/
theorem exec_keyexp_key_tables (h : exec (.keyexp klen rounds) s = .next t) :
    t.key = zeros 16 ∧ t.exp = s.exp ∧ t.tblValid = s.tblValid := by
  cases hc : keyexpChecks s.tblValid klen rounds with
  | error c =>
    rw [exec_keyexp_error hc, Host.Outcome.next.injEq] at h
    subst h
    simp
  | ok r =>
    rw [exec_keyexp_ok hc, Host.Outcome.next.injEq] at h
    subst h
    simp

end

/-- R123: the accumulators of the all-zero key are 0. -/
theorem ra0_zeros (klen i : Nat) : ra0 (zeros 16) klen i = 0 := by
  unfold ra0
  split <;> simp [k1]

theorem rb0_zeros (klen i : Nat) : rb0 (zeros 16) klen i = 0 := by
  unfold rb0
  split <;> simp [k1, k2]

/-- R246: the rounds of the all-zero key are the round constants. -/
theorem HoldsRound.of_zeros {exp : Bytes 256} {klen r : Nat} {sk : Bytes 216} (h : HoldsRound exp (zeros 16) klen r sk) :
    ∀ j < 8, rd sk (8 + 16 * (r - 1) + j) = constant exp (18 * r + j + 1) ∧
      rd sk (8 + 16 * (r - 1) + 8 + j) = constant exp (18 * r + j + 10) := by
  simpa [HoldsRound, ra0_zeros, rb0_zeros, BitVec.rotateLeft_def] using h

end Sys2Proof.Machine
end

section
/-! The key schedule (spec/41_key_schedule.md): the statements settled. -/

namespace Sys2Proof.Proofs

open Sys2Proof.Machine Sys2Proof.Spec

/-- Settles O38: by the two outcomes of the checks. -/
theorem keyexpErrorCodes : Obligations.KeyexpErrorCodes := by
  intro klen rounds s
  by_cases hfail : s.tblValid = false ∨ rounds = some 0
  · refine ⟨_, exec_keyexp_error (keyexpChecks_error hfail), ?_⟩
    rw [State.finish_err]
    split_ifs with hv hr
    · rfl
    · rfl
    · exact absurd hfail (not_or.mpr ⟨hv, hr⟩)
  · obtain ⟨hv, hr⟩ := not_or.mp hfail
    obtain ⟨r, hc⟩ := keyexpChecks_passes (klen := klen) (Bool.eq_true_of_not_eq_false hv) hr
    exact ⟨_, exec_keyexp_ok hc, by rw [if_neg hv, if_neg hr, State.finish_err]⟩

/-- Settles O39: the state of `exec_keyexp_error`, with the code of the failing check. -/
theorem keyexpFailureEffects : Obligations.KeyexpFailureEffects :=
  fun _ _ _ h => exec_keyexp_error (keyexpChecks_error h)

/-- Settles O40: the state of `exec_keyexp_ok`, by whether a round count is supplied. -/
theorem keyexpSuccessEffects : Obligations.KeyexpSuccessEffects := by
  intro klen rounds s hv hr
  cases rounds with
  | none => exact ⟨_, exec_keyexp_ok (keyexpChecks_default hv)⟩
  | some rreq => exact ⟨_, exec_keyexp_ok (keyexpChecks_supplied hv fun h => hr (h ▸ rfl))⟩

/-- Settles O41: the bytes of the expanded key, as the count the checks answer is at most 13 and fits ROUNDS. -/
theorem keyexpScheduleBytes : Obligations.KeyexpScheduleBytes := by
  intro klen rounds s t hv hr h
  obtain ⟨r, hc⟩ := keyexpChecks_passes (klen := klen) hv hr
  obtain ⟨-, -, hr13⟩ := keyexpChecks_ok hc
  rw [exec_keyexp_ok hc, Host.Outcome.next.injEq] at h
  subst h
  have hrounds : (BitVec.ofNat 4 r).toNat = r := by simpa using Nat.mod_eq_of_lt (show r < 16 by omega)
  simp only [State.finish_sk, State.finish_rounds, hrounds]
  exact expandKey_bytes s.exp s.key klen hr13 s.sk

/-- Settles O43: neither the bytes from min(KLEN, 16) on nor a KLEN beyond 16 reach the key blocks or the checks. -/
theorem keyexpIgnoresUnusedKeyBytes : Obligations.KeyexpIgnoresUnusedKeyBytes := by
  refine ⟨fun klen rounds s key h => ?_, fun klen rounds s h => ?_⟩
  · refine (exec_keyexp_congr rfl fun i hi => ?_).symm
    have h' : ∀ i < min klen 16, rd s.key i = rd key i := fun i hi => (h i hi).symm
    exact ⟨k1_congr h' hi, k2_congr h' hi⟩
  · refine exec_keyexp_congr (key := s.key) (keyexpChecks_long _ (by omega) (by decide)) fun i hi => ?_
    rw [k1_of_lt (by omega), k1_of_lt (by omega), k2_of_long h hi, k2_of_long le_rfl hi]
    exact ⟨rfl, rfl⟩

/-- Settles O44: K‖K has the key blocks of K, and a supplied count does not depend on the key's length. -/
theorem shortKeyDuplication : Obligations.ShortKeyDuplication := by
  intro s key2 hv hkey
  refine ⟨fun rreq hr => ?_, _, _, exec_keyexp_ok (keyexpChecks_default hv),
    exec_keyexp_ok (keyexpChecks_default (s := { s with key := key2 }) hv), rfl, rfl⟩
  have hsame : exec (.keyexp 8 (some rreq)) s = exec (.keyexp 16 (some rreq)) { s with key := key2 } := by
    refine exec_keyexp_congr rfl fun i hi => ?_
    obtain ⟨hlow, hhigh⟩ := hkey i hi
    rw [k2_of_short le_rfl, k1_of_lt hi, k1_of_lt (by omega), k2_of_long le_rfl hi]
    exact ⟨hlow.symm, hhigh.symm⟩
  have hok := exec_keyexp_ok (keyexpChecks_supplied (klen := 8) hv hr)
  exact ⟨_, _, hok, hsame.symm.trans hok, rfl, rfl⟩

/-- Settles O45: the checks answer 13 for each such count, and KEYEXP reads it nowhere else. -/
theorem roundCountClamp : Obligations.RoundCountClamp := by
  intro klen rreq s h _
  have hsame : exec (.keyexp klen (some rreq)) s = exec (.keyexp klen (some 13)) s :=
    exec_keyexp_congr (key := s.key) (keyexpChecks_clamp _ h) fun _ _ => ⟨rfl, rfl⟩
  exact ⟨hsame, fun hv => ⟨_, hsame.trans (exec_keyexp_ok (keyexpChecks_supplied hv (by decide))), rfl⟩⟩

/-- Settles O46: the first KEYEXP leaves the all-zero key, whose accumulators are 0, so the schedule's bytes (O41) are the round
constants. -/
theorem secondKeyexpExpandsZeroKey : Obligations.SecondKeyexpExpandsZeroKey := by
  intro klen klen' rounds rounds' s t h
  obtain ⟨hkey, hexp, htbl⟩ := exec_keyexp_key_tables h
  refine ⟨?_, fun hv hr => ?_⟩
  · rw [show Vector.replicate 16 0 = t.key from hkey.symm]
  · have hv' : t.tblValid = true := htbl.trans hv
    obtain ⟨r, hc⟩ := keyexpChecks_passes (klen := klen') hv' hr
    obtain ⟨u, hu⟩ : ∃ u, exec (.keyexp klen' rounds') t = .next u := ⟨_, exec_keyexp_ok hc⟩
    obtain ⟨-, hround, -⟩ := keyexpScheduleBytes klen' rounds' t u hv' hr hu
    rw [hkey, hexp] at hround
    exact ⟨u, hu, fun r hr1 hrle => HoldsRound.of_zeros (hround r hr1 hrle)⟩

end Sys2Proof.Proofs
end

section
/-! The layers of a round (R151 to R154) and their inverses (R181, R184 to R186). -/

namespace Sys2Proof.Machine

/-- R151: the first lane of PHT is 2x + y. -/
theorem pht_fst (x y : Byte) : (pht x y).1 = 2 * x + y := by
  simp only [pht]
  ring

/-- R151: the second lane of PHT is x + y. -/
theorem pht_snd (x y : Byte) : (pht x y).2 = x + y := rfl

/-- R181: invPHT undoes PHT. -/
@[simp] theorem invPht_pht (x y : Byte) : invPht (pht x y).1 (pht x y).2 = (x, y) := by
  simp [invPht, pht]

/-- R181: PHT undoes invPHT. -/
@[simp] theorem pht_invPht (x y : Byte) : pht (invPht x y).1 (invPht x y).2 = (x, y) := by
  simp [invPht, pht]

@[simp] theorem undoLayer1_phtLayer1 (l : Lanes) : undoLayer1 (phtLayer1 l) = l := by simp [undoLayer1, phtLayer1]

@[simp] theorem undoLayer2_phtLayer2 (l : Lanes) : undoLayer2 (phtLayer2 l) = l := by simp [undoLayer2, phtLayer2]

@[simp] theorem undoLayer3_phtLayer3 (l : Lanes) : undoLayer3 (phtLayer3 l) = l := by simp [undoLayer3, phtLayer3]

@[simp] theorem phtLayer1_undoLayer1 (l : Lanes) : phtLayer1 (undoLayer1 l) = l := by simp [undoLayer1, phtLayer1]

@[simp] theorem phtLayer2_undoLayer2 (l : Lanes) : phtLayer2 (undoLayer2 l) = l := by simp [undoLayer2, phtLayer2]

@[simp] theorem phtLayer3_undoLayer3 (l : Lanes) : phtLayer3 (undoLayer3 l) = l := by simp [undoLayer3, phtLayer3]

/-- R185: undoing the layers of the PHT network, the last one first, undoes the network. -/
theorem undoNetwork_phtNetwork (l : Lanes) : undoNetwork (phtNetwork l) = l := by
  rw [undoNetwork, phtNetwork, undoLayer3_phtLayer3, undoLayer2_phtLayer2, undoLayer1_phtLayer1]

/-- R185: the network undoes its undoing. -/
theorem phtNetwork_undoNetwork (l : Lanes) : phtNetwork (undoNetwork l) = l := by
  rw [undoNetwork, phtNetwork, phtLayer1_undoLayer1, phtLayer2_undoLayer2, phtLayer3_undoLayer3]

/-- R184: undoing the lane permutation. -/
theorem unpermute_permute (l : Lanes) : unpermute (permute l) = l := rfl

theorem permute_unpermute (l : Lanes) : permute (unpermute l) = l := rfl

/-- R186: the undoing of the mixing, with the subkeys counted up from the first of the round's 16. -/
theorem unmix_from_first (exp log : Bytes 256) (sk : Bytes 216) (i : Nat) (l : Lanes) :
    unmix exp log sk (i + 15) l =
      { a := lookup log (l.a - rd sk (i + 8)) ^^^ rd sk i
        b := lookup exp (l.b ^^^ rd sk (i + 9)) - rd sk (i + 1)
        c := lookup exp (l.c ^^^ rd sk (i + 10)) - rd sk (i + 2)
        d := lookup log (l.d - rd sk (i + 11)) ^^^ rd sk (i + 3)
        e := lookup log (l.e - rd sk (i + 12)) ^^^ rd sk (i + 4)
        f := lookup exp (l.f ^^^ rd sk (i + 13)) - rd sk (i + 5)
        g := lookup exp (l.g ^^^ rd sk (i + 14)) - rd sk (i + 6)
        h := lookup log (l.h - rd sk (i + 15)) ^^^ rd sk (i + 7) } := rfl

section
variable {exp log : Bytes 256} (hinv : ∀ x : Byte, lookup log (lookup exp x) = x ∧ lookup exp (lookup log x) = x)
include hinv

/-- R186: subtract, LOG and XOR undo XOR, EXP and add. -/
theorem unmix_mix (sk : Bytes 216) (i : Nat) (l : Lanes) : unmix exp log sk (i + 15) (mix exp log sk i l) = l := by
  have hlog : ∀ x, lookup log (lookup exp x) = x := fun x => (hinv x).1
  have hexp : ∀ x, lookup exp (lookup log x) = x := fun x => (hinv x).2
  simp only [unmix_from_first, mix, Nat.add_zero, BitVec.add_sub_cancel, xor_cancel_right, hlog, hexp]

/-- R186: XOR, EXP and add undo subtract, LOG and XOR. -/
theorem mix_unmix (sk : Bytes 216) (i : Nat) (l : Lanes) : mix exp log sk i (unmix exp log sk (i + 15) l) = l := by
  have hlog : ∀ x, lookup log (lookup exp x) = x := fun x => (hinv x).1
  have hexp : ∀ x, lookup exp (lookup log x) = x := fun x => (hinv x).2
  simp only [unmix_from_first, mix, Nat.add_zero, BitVec.sub_add_cancel, xor_cancel_right, hlog, hexp]

end

end Sys2Proof.Machine
end

section
/-! The rounds of ENC by number (R155, R157), and what ENC and DEC leave where a schedule is valid (R158, R160, R188). -/

namespace Sys2Proof.Machine

open Sys2Proof.Spec

/-- R157: the cursors of ENC fit its 8 bits. -/
theorem encCursor_toNat {k : Nat} (hk : k ≤ 13) : (BitVec.ofNat 8 (16 * k)).toNat = 16 * k := by
  rw [BitVec.toNat_ofNat, Nat.mod_eq_of_lt (by omega)]

/-- R155, R157: after `k` rounds the lanes are those of the spec's numbered rounds, and the cursor is 16k. -/
theorem encRounds_eq (exp log : Bytes 256) (sk : Bytes 216) (l : Lanes) {k : Nat} (hk : k ≤ 13) :
    encRounds exp log sk k ⟨l, 0⟩ = ⟨encLanes exp log sk k l, BitVec.ofNat 8 (16 * k)⟩ := by
  induction k with
  | zero => rfl
  | succ k ih =>
    rw [encRounds_succ, ih (by omega), encRound, encCursor_toNat (by omega), Nat.mul_succ, BitVec.ofNat_add]
    rfl

/-- R157: the cursor before round `k`, and before the output transform. -/
theorem encRounds_idx_toNat (exp log : Bytes 256) (sk : Bytes 216) (l : Lanes) {k : Nat} (hk : k ≤ 13) :
    (encRounds exp log sk k ⟨l, 0⟩).idx.toNat = 16 * k := by
  rw [encRounds_eq exp log sk l hk, encCursor_toNat hk]

/-- R156: the output transform with the subkeys from index `i` on. -/
theorem outputTransform_eq (sk : Bytes 216) (p : Datapath) {i : Nat} (hi : p.idx.toNat = i) :
    outputTransform sk p =
      { a := p.l.a ^^^ rd sk i, b := p.l.b + rd sk (i + 1), c := p.l.c + rd sk (i + 2), d := p.l.d ^^^ rd sk (i + 3)
        e := p.l.e ^^^ rd sk (i + 4), f := p.l.f + rd sk (i + 5), g := p.l.g + rd sk (i + 6), h := p.l.h ^^^ rd sk (i + 7) } := by
  subst hi
  rfl

/-- R157: the encryption of a block is the output transform of the lanes after the numbered rounds. -/
theorem encryptBlock_eq (exp log : Bytes 256) (sk : Bytes 216) (input : Bytes 8) {r : Nat} (hr : r ≤ 13) :
    encryptBlock exp log sk r input =
      (outputTransform sk ⟨encLanes exp log sk r (Lanes.ofBlock input), BitVec.ofNat 8 (16 * r)⟩).toBlock := by
  rw [encryptBlock, encRounds_eq exp log sk _ hr]

section
variable {s s' t : State}

/-- R157, R158: where ENC answers beside a valid schedule, it has encrypted DIN. -/
theorem exec_enc_inversion (hs : s.schedValid = true) (h : exec .enc s = .next t) :
    t = ({ s.leaveDatapath with dout := encryptBlock s.exp s.log s.sk s.rounds.toNat s.din }).finish .ok := by
  by_cases hr : s.rounds.toNat ≤ 13
  · simpa [exec_enc_ok hs hr] using h.symm
  · simp [exec_enc_reserved hs (by omega)] at h

/-- R183, R188: where DEC answers beside a valid schedule, it has decrypted DIN. -/
theorem exec_dec_inversion (hs : s.schedValid = true) (h : exec .dec s = .next t) :
    t = ({ s.leaveDatapath with dout := decryptBlock s.exp s.log s.sk s.rounds.toNat s.din }).finish .ok := by
  by_cases hr : s.rounds.toNat ≤ 13
  · simpa [exec_dec_ok hs hr] using h.symm
  · simp [exec_dec_reserved hs (by omega)] at h

/-- R38 (a), R24: beside a valid schedule the tables are those of TBLGEN. -/
theorem EngineInv.tables_of_schedule (h : EngineInv s) (hs : s.schedValid = true) : s.exp = builtExp ∧ s.log = builtLog :=
  h.tables_built (h.sched_rounds hs).1

/-- R38 (c): as the store is 0 beyond its schedule, the schedule's bytes give the whole store. -/
theorem EngineInv.sk_eq_of_schedule (h : EngineInv s) (h' : EngineInv s') (hs : s.schedValid = true)
    (hs' : s'.schedValid = true) (hrounds : s.rounds = s'.rounds)
    (hsk : ∀ i < Config.skLen s.rounds.toNat, rd s.sk i = rd s'.sk i) : s.sk = s'.sk := by
  apply bytes_ext
  intro i _
  by_cases hi : i < Config.skLen s.rounds.toNat
  · exact hsk i hi
  · rw [h.sched_tail hs i (by omega), h'.sched_tail hs' i (by rw [← hrounds]; omega)]

end

end Sys2Proof.Machine
end

section
/-! The encrypt datapath (spec/42_encrypt.md): the statements settled. -/

namespace Sys2Proof.Proofs

open Sys2Proof.Machine Sys2Proof.Spec

/-- Settles O47: without a schedule both commands raise NO_SCHEDULE, with one they can only complete, and a valid schedule
needs tables. -/
theorem cipherWithoutSchedule : Obligations.CipherWithoutSchedule := by
  refine ⟨fun s hs => ⟨exec_enc_noSchedule hs, exec_dec_noSchedule hs⟩, fun s t hs h => ?_, fun s hinv htbl => ?_⟩
  · rcases h with h | h
    · rw [exec_enc_inversion hs h, State.finish_err]
    · rw [exec_dec_inversion hs h, State.finish_err]
  · cases hs : s.schedValid with
    | false => rfl
    | true =>
      obtain ⟨hvalid, -⟩ := hinv.sched_rounds hs
      simp [htbl] at hvalid

/-- Settles O48: ENC's loop runs the numbered rounds (`encryptBlock_eq`), and the output transform reads from 16R on. -/
theorem encCompletes : Obligations.EncCompletes := by
  intro s hs hr
  refine ⟨_, _, _, _, _, exec_enc_ok hs hr, ?_⟩
  rw [encryptBlock_eq _ _ _ _ hr, outputTransform_eq _ _ (encCursor_toNat hr)]
  exact ⟨rfl, rfl, rfl, rfl, rfl, rfl, rfl, rfl⟩

/-- Settles O50: the cursor is 16k after k rounds. -/
theorem encCursor : Obligations.EncCursor := by
  intro exp log sk l r k hr hk
  rw [encRounds_idx_toNat exp log sk l (hk.trans hr), encRounds_idx_toNat exp log sk l hr, Config.skLen]
  omega

/-- Settles O53: each layer is linear by `pht_fst` and `pht_snd`; the lanes' sums are then compared in the ring of bytes. -/
theorem phtNetworkMatrix : Obligations.PhtNetworkMatrix := by
  intro l
  simp only [phtNetwork, phtLayer1, phtLayer2, phtLayer3, pht_fst, pht_snd]
  refine ⟨?_, ?_, ?_, ?_, ?_, ?_, ?_, ?_⟩ <;> ring

/-- Settles O55: layer by layer. -/
theorem inverseLayers : Obligations.InverseLayers :=
  ⟨fun _ => ⟨rfl, rfl⟩,
    fun l => ⟨unpermute_permute l, permute_unpermute l, undoNetwork_phtNetwork l, phtNetwork_undoNetwork l⟩,
    fun _ _ sk k l hinv => ⟨unmix_mix hinv sk (16 * k) l, mix_unmix hinv sk (16 * k) l⟩⟩

/-- Settles O57: the invariant fixes the tables and the store beyond the schedule, so the two commands have equal inputs. -/
theorem cipherReadsOnlyItsSchedule : Obligations.CipherReadsOnlyItsSchedule := by
  intro s s' t t' hinv hinv' hs hs' hdin hrounds hbytes
  have hsk : s.sk = s'.sk := hinv.sk_eq_of_schedule hinv' hs hs' hrounds hbytes
  obtain ⟨hexp, hlog⟩ := hinv.tables_of_schedule hs
  obtain ⟨hexp', hlog'⟩ := hinv'.tables_of_schedule hs'
  refine ⟨fun h h' => ?_, fun h h' => ?_⟩
  · rw [exec_enc_inversion hs h, exec_enc_inversion hs' h', State.finish_dout, State.finish_dout]
    simp only [hexp, hlog, hexp', hlog', hsk, hdin, hrounds]
  · rw [exec_dec_inversion hs h, exec_dec_inversion hs' h', State.finish_dout, State.finish_dout]
    simp only [hexp, hlog, hexp', hlog', hsk, hdin, hrounds]

/-- Settles O52: by PHT's two lanes and the two inverse laws. -/
theorem phtAndInverse : Obligations.PhtAndInverse :=
  fun x y => ⟨rfl, Prod.ext (pht_fst x y) (pht_snd x y), rfl, invPht_pht x y, pht_invPht x y⟩

/-- Settles O54: the mixing as the model writes it, and its undoing counted from the round's first subkey. -/
theorem mixingFormulas : Obligations.MixingFormulas := fun exp log sk i l => ⟨rfl, unmix_from_first exp log sk i l⟩

end Sys2Proof.Proofs
end

section
/-! DEC's cursor (R182, R183), and the rounds and the output transform of ENC and DEC undoing each other (R187). -/

namespace Sys2Proof.Machine

open Sys2Proof.Spec

/-- R183: DEC's cursor where `k` rounds are still to be undone: one less than 16k, in 8 bits. -/
def decCursorAt (k : Nat) : BitVec 8 := BitVec.ofNat 8 (16 * k) - 1

/-- R183: before the iteration that undoes round `k` the cursor is at the last of the round's 16 subkeys. -/
theorem decCursorAt_succ_toNat {k : Nat} (hk : k < 13) : (decCursorAt (k + 1)).toNat = 16 * k + 15 := by
  simp only [decCursorAt]
  bv_omega

/-- R183: one iteration's step of the cursor, the last one's wrap to 255 included. -/
theorem decCursorAt_succ_sub (k : Nat) : decCursorAt (k + 1) - 16 = decCursorAt k := by
  simp only [decCursorAt]
  bv_omega

/-- R182: the cursor's start fits its 8 bits. -/
theorem decStart_toNat {r : Nat} (hr : r ≤ 13) : (BitVec.ofNat 8 (Config.skLen r - 1)).toNat = 16 * r + 7 := by
  rw [BitVec.toNat_ofNat, Config.skLen]
  omega

/-- R182: undoing the output transform moves the cursor from SK_LEN(R) - 1 to the last round's subkeys. -/
theorem decStart_sub (r : Nat) : BitVec.ofNat 8 (Config.skLen r - 1) - 8 = decCursorAt r := by
  simp only [decCursorAt, Config.skLen]
  bv_omega

/-- R182: the undoing of the output transform, with the subkeys counted up from index 16R. -/
theorem undoOutput_from_first (sk : Bytes 216) (l : Lanes) {r : Nat} (hr : r ≤ 13) :
    undoOutput sk (BitVec.ofNat 8 (Config.skLen r - 1)) l =
      ⟨{ a := l.a ^^^ rd sk (16 * r), b := l.b - rd sk (16 * r + 1), c := l.c - rd sk (16 * r + 2), d := l.d ^^^ rd sk (16 * r + 3)
         e := l.e ^^^ rd sk (16 * r + 4), f := l.f - rd sk (16 * r + 5), g := l.g - rd sk (16 * r + 6)
         h := l.h ^^^ rd sk (16 * r + 7) }, decCursorAt r⟩ := by
  rw [undoOutput, decStart_toNat hr, decStart_sub]
  rfl

/-- R182: DEC's first step undoes ENC's last. -/
theorem undoOutput_outputTransform (sk : Bytes 216) (l : Lanes) {r : Nat} (hr : r ≤ 13) :
    undoOutput sk (BitVec.ofNat 8 (Config.skLen r - 1)) (outputTransform sk ⟨l, BitVec.ofNat 8 (16 * r)⟩) =
      ⟨l, decCursorAt r⟩ := by
  rw [undoOutput_from_first sk _ hr, outputTransform_eq sk _ (encCursor_toNat hr)]
  simp only [BitVec.add_sub_cancel, xor_cancel_right]

/-- R182: ENC's last step undoes DEC's first. -/
theorem outputTransform_undoOutput (sk : Bytes 216) (l : Lanes) {r : Nat} (hr : r ≤ 13) :
    outputTransform sk ⟨(undoOutput sk (BitVec.ofNat 8 (Config.skLen r - 1)) l).l, BitVec.ofNat 8 (16 * r)⟩ = l := by
  rw [outputTransform_eq sk _ (encCursor_toNat hr), undoOutput_from_first sk _ hr]
  simp only [BitVec.sub_add_cancel, xor_cancel_right]

section
variable (exp log : Bytes 256) (sk : Bytes 216)

/-- R183: the cursor after `k` of `r` iterations. -/
theorem decRounds_idx {r k : Nat} {p : Datapath} (hp : p.idx = decCursorAt r) (hk : k ≤ r) :
    (decRounds exp log sk k p).idx = decCursorAt (r - k) := by
  induction k with
  | zero => exact hp
  | succ k ih =>
    have hleft : r - k = r - (k + 1) + 1 := by omega
    rw [decRounds_succ, decRound, ih (by omega), hleft, decCursorAt_succ_sub]

/-- R183: a loop of one more iteration, taken from its beginning. -/
theorem decRounds_succ_first (r : Nat) (p : Datapath) :
    decRounds exp log sk (r + 1) p = decRounds exp log sk r (decRound exp log sk p) := by
  induction r with
  | zero => rfl
  | succ r ih => rw [decRounds_succ, ih, ← decRounds_succ]

/-- R184 to R186: the iteration that undoes round `k`. -/
theorem decRound_eq (l : Lanes) {k : Nat} (hk : k < 13) :
    decRound exp log sk ⟨l, decCursorAt (k + 1)⟩ =
      ⟨unmix exp log sk (16 * k + 15) (undoNetwork (unpermute l)), decCursorAt k⟩ := by
  rw [decRound, decCursorAt_succ_toNat hk, decCursorAt_succ_sub]

end

section
variable {exp log : Bytes 256} (hinv : ∀ x : Byte, lookup log (lookup exp x) = x ∧ lookup exp (lookup log x) = x)
include hinv

/-- R187: DEC's iterations undo the rounds of ENC, the last one first. -/
theorem decRounds_encLanes (sk : Bytes 216) (l : Lanes) {r : Nat} (hr : r ≤ 13) :
    decRounds exp log sk r ⟨encLanes exp log sk r l, decCursorAt r⟩ = ⟨l, decCursorAt 0⟩ := by
  induction r with
  | zero => rfl
  | succ r ih =>
    rw [decRounds_succ_first, decRound_eq _ _ _ _ hr, encLanes, unpermute_permute, undoNetwork_phtNetwork, unmix_mix hinv,
      ih (by omega)]

/-- R187: the rounds of ENC undo DEC's iterations. -/
theorem encLanes_decRounds (sk : Bytes 216) (l : Lanes) {r : Nat} (hr : r ≤ 13) :
    encLanes exp log sk r (decRounds exp log sk r ⟨l, decCursorAt r⟩).l = l := by
  induction r generalizing l with
  | zero => rfl
  | succ r ih =>
    rw [decRounds_succ_first, decRound_eq _ _ _ _ hr, encLanes, ih _ (by omega), mix_unmix hinv, phtNetwork_undoNetwork,
      permute_unpermute]

/-- R187: decryption gives an encrypted block back. -/
theorem decryptBlock_encryptBlock (sk : Bytes 216) (x : Bytes 8) {r : Nat} (hr : r ≤ 13) :
    decryptBlock exp log sk r (encryptBlock exp log sk r x) = x := by
  rw [decryptBlock, encryptBlock_eq _ _ _ _ hr, ofBlock_toBlock, undoOutput_outputTransform _ _ hr,
    decRounds_encLanes hinv _ _ hr, toBlock_ofBlock]

/-- R187: encryption gives a decrypted block back. -/
theorem encryptBlock_decryptBlock (sk : Bytes 216) (y : Bytes 8) {r : Nat} (hr : r ≤ 13) :
    encryptBlock exp log sk r (decryptBlock exp log sk r y) = y := by
  have hstart : undoOutput sk (BitVec.ofNat 8 (Config.skLen r - 1)) (Lanes.ofBlock y) =
      ⟨(undoOutput sk (BitVec.ofNat 8 (Config.skLen r - 1)) (Lanes.ofBlock y)).l, decCursorAt r⟩ := by
    rw [undoOutput_from_first _ _ hr]
  rw [encryptBlock_eq _ _ _ _ hr, decryptBlock, ofBlock_toBlock, hstart, encLanes_decRounds hinv _ _ hr,
    outputTransform_undoOutput _ _ hr, toBlock_ofBlock]

end

/-- R102, R38 (a): beside a valid schedule EXP and LOG invert each other. -/
theorem EngineInv.tables_inverse {s : State} (h : EngineInv s) (hs : s.schedValid = true) (x : Byte) :
    lookup s.log (lookup s.exp x) = x ∧ lookup s.exp (lookup s.log x) = x := by
  obtain ⟨hexp, hlog⟩ := h.tables_of_schedule hs
  rw [hexp, hlog]
  exact ⟨lookup_builtLog_builtExp x, lookup_builtExp_builtLog x⟩

end Sys2Proof.Machine
end

section
/-! The decrypt datapath (spec/43_decrypt.md): the statements settled. -/

namespace Sys2Proof.Proofs

open Sys2Proof.Machine

/-- Settles O49: what DEC leaves is `exec_dec_ok`, and encryption undoes decryption where the tables invert each other. -/
theorem decCompletes : Obligations.DecCompletes := by
  intro s hs hr
  exact ⟨_, _, _, _, _, exec_dec_ok hs hr, fun htables => encryptBlock_decryptBlock htables s.sk s.din hr⟩

/-- Settles O51: after k iterations the cursor is that of r - k rounds still to undo. -/
theorem decCursor : Obligations.DecCursor := by
  intro exp log sk l r k _ hr hk start
  have hstart : start.idx = decCursorAt r := decStart_sub r
  refine ⟨?_, ?_, ?_⟩
  · rw [decStart_toNat hr, Config.skLen]
    omega
  · have hleft : r - k = r - 1 - k + 1 := by omega
    rw [decRounds_idx exp log sk hstart hk.le, hleft, decCursorAt_succ_toNat (by omega)]
  · rw [decRounds_idx exp log sk hstart le_rfl, Nat.sub_self]
    rfl

/-- Settles O56: neither command changes what the other reads besides DIN, and the tables of a state with the invariant invert
each other. -/
theorem encDecRoundTrip : Obligations.EncDecRoundTrip := by
  intro s hinv hs
  have htables := hinv.tables_inverse hs
  have hr := hinv.rounds_le
  have hleft : Function.LeftInverse (decryptBlock s.exp s.log s.sk s.rounds.toNat) (encryptBlock s.exp s.log s.sk s.rounds.toNat) :=
    fun x => decryptBlock_encryptBlock htables s.sk x hr
  have hright : Function.RightInverse (decryptBlock s.exp s.log s.sk s.rounds.toNat) (encryptBlock s.exp s.log s.sk s.rounds.toNat) :=
    fun y => encryptBlock_decryptBlock htables s.sk y hr
  exact ⟨⟨_, _, exec_enc_ok hs hr, exec_dec_ok hs hr, hleft s.din⟩,
    ⟨_, _, exec_dec_ok hs hr, exec_enc_ok hs hr, hright s.din⟩,
    ⟨hleft.injective, hright.surjective⟩, hleft, hright⟩

end Sys2Proof.Proofs
end

section
/-! A step by the agent whose turn it is (R242, R250, R230), and what every step leaves of the schedule and of the host's side. -/

namespace Sys2Proof.Machine

section
variable {s t : State} {w : Word}

/-- R250: a step is the next agent's turn. -/
theorem step_eq_turn {a : Turn} (h : nextTurn s = a) : step s = turn a s.takeTurn := by
  rw [step, h]

/-- R250, log 1: with no turn scheduled a busy engine moves. -/
theorem nextTurn_engine_of_busy (hsched : s.schedule = []) (hb : s.busy = true) : nextTurn s = .engine := by
  simp [nextTurn, hsched, hb]

/-- Log 1: with no turn scheduled and the engine idle the host moves. -/
theorem nextTurn_host_of_idle (hsched : s.schedule = []) (hb : s.busy = false) : nextTurn s = .host := by
  simp [nextTurn, hsched, hb]

/-- R242: the engine's turn on a busy state whose command is legal. -/
theorem engineTurn_decoded {i : Instr} (hb : s.busy = true) (hp : s.pend = some w) (hd : decode w = .ok i) :
    engineTurn s = exec i s :=
  (engineTurn_busy hb hp).trans (completion_ok s hd)

/-- A completion touches neither the host's side nor the schedule (R242, R37). -/
theorem completion_frame (h : completion w s = .next t) :
    t.program = s.program ∧ t.vars = s.vars ∧ t.schedule = s.schedule := by
  rcases completion_cases h with ⟨i, -, hi⟩ | ⟨-, rfl⟩
  · obtain ⟨-, -, hprog, hvars, hsched, -⟩ := exec_frame hi
    exact ⟨hprog, hvars, hsched⟩
  · exact ⟨rfl, rfl, rfl⟩

/-- No host turn touches the schedule. -/
theorem hostTurn_schedule (h : hostTurn s = .next t) : t.schedule = s.schedule := by
  obtain ⟨_, _, _, _, _, _, _, _, rfl, -⟩ := hostTurn_frame h
  rfl

/-- R89: where the engine is idle a host turn uses up the next operation, a `POLL` too. -/
theorem hostTurn_idle_program (hb : s.busy = false) (h : hostTurn s = .next t) : t.program = s.program.tail := by
  rcases hostTurn_cases h with ⟨hp, rfl⟩ | ⟨op, rest, hp, ⟨_, _, _, -, -, rfl⟩ | ⟨_, _, _, -, rfl⟩ | ⟨x, -, rfl⟩⟩
  · simp [hp]
  · simp [hp]
  · simp [hp]
  · obtain ⟨hbusy, -⟩ := statusWord_fields s
    rw [hbusy, hb, hp]
    rfl

/-- Log 1: a step uses up one turn of the schedule. -/
theorem step_schedule (h : step s = .next t) : t.schedule = s.schedule.tail := by
  rcases step_cases h with ⟨-, ht⟩ | ⟨-, -, rfl⟩ | ⟨-, -, w, -, hw⟩ | ⟨-, rfl⟩
  · exact hostTurn_schedule ht
  · rfl
  · obtain ⟨-, -, hsched⟩ := completion_frame hw
    exact hsched
  · rfl

/-- Only the host's turn touches the program and the names: every step keeps `hostRuns`. -/
theorem step_hostRuns (hruns : s.hostRuns = true) (h : step s = .next t) : t.hostRuns = true := by
  rcases step_cases h with ⟨-, ht⟩ | ⟨-, -, rfl⟩ | ⟨-, -, w, -, hw⟩ | ⟨-, rfl⟩
  · exact hostTurn_hostRuns (s := s.takeTurn) hruns ht
  · exact hruns
  · obtain ⟨hprog, hvars, -⟩ := completion_frame hw
    rw [State.hostRuns, hprog, hvars]
    exact hruns
  · exact hruns

end

/-- Runs compose. -/
theorem stepsTo_trans {j k : Nat} {s t u : State} (hst : stepsTo j s t) (htu : stepsTo k t u) : stepsTo (j + k) s u := by
  induction j generalizing s with
  | zero =>
    obtain rfl : t = s := hst
    rwa [Nat.zero_add]
  | succ j ih =>
    obtain ⟨v, hv, hvt⟩ := hst
    rw [Nat.succ_add]
    exact ⟨v, hv, ih hvt⟩

end Sys2Proof.Machine
end

section
/-! Bounded liveness (R249, R250, R251): a state from which no step stops uses up its schedule, and from then on each step brings the
host's program and the command in flight nearer to their end. -/

namespace Sys2Proof.Machine

/-- The states from which no step stops: the invariant holds, and no operation of the host's program is refused. -/
structure Runs (s : State) : Prop where
  inv : EngineInv s
  host : s.hostRuns = true

section
variable {s t : State}

/-- R200: such a state's next step answers. -/
theorem Runs.answers (h : Runs s) : ∃ t, step s = .next t :=
  Proofs.stepAnswersFromInvariant.2 s h.inv h.host

/-- Such a state's next state is such a state. -/
theorem Runs.step (h : Runs s) (ht : step s = .next t) : Runs t :=
  ⟨h.inv.step ht, step_hostRuns h.host ht⟩

/-- Log 1: after as many steps as turns are scheduled, the schedule is empty. -/
theorem Runs.reaches_empty_schedule (h : Runs s) : ∃ t, stepsTo s.schedule.length s t ∧ Runs t ∧ t.schedule = [] := by
  induction hsched : s.schedule generalizing s with
  | nil => exact ⟨s, rfl, h, hsched⟩
  | cons a rest ih =>
    obtain ⟨u, hu⟩ := h.answers
    have hrest : u.schedule = rest := by rw [step_schedule hu, hsched, List.tail_cons]
    obtain ⟨t, hut, ht⟩ := ih (h.step hu) hrest
    exact ⟨t, ⟨u, hu, hut⟩, ht⟩

/-- R250: with no turn scheduled a step completes the command in flight, and the host's program waits. -/
theorem step_completes (hsched : s.schedule = []) (hb : s.busy = true) (h : step s = .next t) :
    t.busy = false ∧ t.program = s.program := by
  obtain ⟨w, -, hw⟩ : ∃ w, s.pend = some w ∧ completion w s.takeTurn = .next t := by
    simpa [nextTurn_engine_of_busy hsched hb, hb] using step_cases h
  obtain ⟨-, hbusy⟩ := completion_pend_busy hw
  obtain ⟨hprog, -, -⟩ := completion_frame hw
  exact ⟨hbusy, hprog⟩

/-- R250: with no turn scheduled and the engine idle a step uses up the host's next operation. -/
theorem step_uses_operation (hsched : s.schedule = []) (hb : s.busy = false) (h : step s = .next t) :
    t.program = s.program.tail := by
  rw [step_eq_turn (nextTurn_host_of_idle hsched hb)] at h
  exact hostTurn_idle_program (s := s.takeTurn) hb h

/-- R249, R250: a command in flight ends within the turns scheduled and one more. -/
theorem Runs.ends_command (h : Runs s) : ∃ k t, k ≤ s.schedule.length + 1 ∧ stepsTo k s t ∧ t.busy = false := by
  obtain ⟨u, hsu, hu, hsched⟩ := h.reaches_empty_schedule
  cases hb : u.busy with
  | false => exact ⟨_, u, Nat.le_succ _, hsu, hb⟩
  | true =>
    obtain ⟨t, ht⟩ := hu.answers
    exact ⟨_, t, le_rfl, stepsTo_trans hsu ⟨t, ht, rfl⟩, (step_completes hsched hb ht).1⟩

/-- A measure of what a run with no turn scheduled has left: each operation of the host takes a turn and can start a command, which
takes one more. -/
def turnsLeft (s : State) : Nat := 2 * s.program.length + s.busy.toNat

/-- With no turn scheduled every step before the run's end lowers the measure. -/
theorem step_turnsLeft_lt (hsched : s.schedule = []) (hend : ¬ s.runEnded = true) (h : step s = .next t) :
    turnsLeft t < turnsLeft s := by
  cases hb : s.busy with
  | true =>
    obtain ⟨hbusy, hprog⟩ := step_completes hsched hb h
    simp [turnsLeft, hprog, hbusy, hb]
  | false =>
    have hne : s.program ≠ [] := fun hp => hend ((runEnded_iff s).mpr ⟨hp, hb⟩)
    have hpos : 0 < s.program.length := List.length_pos_of_ne_nil hne
    have hbusy : t.busy.toNat ≤ 1 := Bool.toNat_le _
    rw [turnsLeft, turnsLeft, step_uses_operation hsched hb h, List.length_tail]
    omega

/-- R251: with no turn scheduled the run ends, by induction on the turns left. -/
theorem Runs.ends_of_empty_schedule (h : Runs s) (hsched : s.schedule = []) : ∃ k t, stepsTo k s t ∧ t.runEnded = true := by
  induction hm : turnsLeft s using Nat.strong_induction_on generalizing s with
  | _ m ih =>
    by_cases hend : s.runEnded = true
    · exact ⟨0, s, rfl, hend⟩
    · obtain ⟨u, hu⟩ := h.answers
      have hlt : turnsLeft u < m := hm ▸ step_turnsLeft_lt hsched hend hu
      obtain ⟨k, t, hut, ht⟩ := ih _ hlt (h.step hu) (by rw [step_schedule hu, hsched, List.tail_nil]) rfl
      exact ⟨k + 1, t, ⟨u, hu, hut⟩, ht⟩

end

end Sys2Proof.Machine
end

section
/-! The latency of KEYEXP by the outcome of its checks (R249, R121). -/

namespace Sys2Proof.Machine

section
variable {w : Word} {klen r : Nat} {rreq : Option Nat} {tblValid : Bool}

/-- R249: a KEYEXP whose checks pass takes T_KEYEXP of the count they answer. -/
theorem latency_keyexp_ok (hd : decode w = .ok (.keyexp klen rreq)) (hc : keyexpChecks tblValid klen rreq = .ok r)
    (schedValid : Bool) (rounds : BitVec 4) : latency w tblValid schedValid rounds = Config.tKeyexp r := by
  simp only [latency, hd, hc]

/-- R249: 'A failing command, or an illegal one, takes T_ERR.' -/
theorem latency_keyexp_error {c : ErrCode} (hd : decode w = .ok (.keyexp klen rreq))
    (hc : keyexpChecks tblValid klen rreq = .error c) (schedValid : Bool) (rounds : BitVec 4) :
    latency w tblValid schedValid rounds = Config.tErr := by
  simp only [latency, hd, hc]

end

end Sys2Proof.Machine
end

section
/-! Reset, the steps of the engine and the end of a run (spec/70_reset_and_hazards.md): the statements settled. -/

namespace Sys2Proof.Proofs

open Sys2Proof.Machine Sys2Proof.Spec

/-- Settles O8: by OP, the word in PEND decodes to its command; the end of a completion is `exec_frame`. -/
theorem engineStepCompletesPend : Obligations.EngineStepCompletesPend := by
  refine fun s => ⟨engineTurn_idle, fun w hb hp => ⟨fun h => ?_, fun h => ?_, fun h => ?_, fun h => ?_, fun h => ?_⟩, fun i t h => ?_⟩
  · exact engineTurn_decoded hb hp (decode_tblgen h)
  · exact ⟨_, _, decode_keyexp h, engineTurn_decoded hb hp (decode_keyexp h)⟩
  · exact engineTurn_decoded hb hp (decode_enc h)
  · exact engineTurn_decoded hb hp (decode_dec h)
  · exact (engineTurn_busy hb hp).trans (completion_error s (decode_illegal h))
  · obtain ⟨hpend, hbusy, -⟩ := exec_frame h
    exact ⟨hpend, hbusy⟩

/-- Settles O11: the schedule is used up in as many steps as it has turns, and then a busy engine moves. -/
theorem busyCommandEndsSoon : Obligations.BusyCommandEndsSoon :=
  fun _ hinv _ hruns => Runs.ends_command ⟨hinv, hruns⟩

/-- Settles O12: the schedule is used up first; after that every step lowers `turnsLeft`. -/
theorem hostProgramEnds : Obligations.HostProgramEnds := by
  intro s hinv hruns
  obtain ⟨u, hsu, hu, hsched⟩ := Runs.reaches_empty_schedule ⟨hinv, hruns⟩
  obtain ⟨k, t, hut, ht⟩ := hu.ends_of_empty_schedule hsched
  exact ⟨_, t, stepsTo_trans hsu hut, ht⟩

/-- Settles O25: the reset's turn answers `State.engineReset`, whatever the state. -/
theorem resetAbandonsCommand : Obligations.ResetAbandonsCommand :=
  fun s hn => ⟨s.takeTurn.engineReset, step_eq_turn hn, rfl, rfl, rfl⟩

/-- Settles O9: the turn is the engine's by either form of the schedule, and completes the decoded command. -/
theorem stepRunsDecodedCommand : Obligations.StepRunsDecodedCommand := by
  intro s w i hb hp hd hsched
  have hn : nextTurn s = .engine := by
    rcases hsched with hnil | ⟨rest, hcons⟩
    · exact nextTurn_engine_of_busy hnil hb
    · rw [nextTurn, hcons]
  exact (step_eq_turn hn).trans (engineTurn_decoded (s := s.takeTurn) hb hp hd)

/-- Settles O24: every array of the reset state is `zeros`, every other element is written out as 0. -/
theorem resetState : Obligations.ResetState :=
  ⟨rfl, rfl, rfl, rfl, rfl, rfl, rfl,
    fun i => ⟨rd_zeros 16 i, rd_zeros 8 i, rd_zeros 8 i, rd_zeros 256 i, rd_zeros 256 i, rd_zeros 216 i, rd_zeros 8 i, rd_zeros 8 i,
      rd_zeros 9 i, rd_zeros 9 i⟩,
    rfl, rfl, rfl, rfl, rfl⟩

/-- Settles O59: by OP; for KEYEXP by the outcome of its checks. -/
theorem latencyByCommand : Obligations.LatencyByCommand := by
  intro w tv sv rounds
  refine ⟨fun h => ?_, fun klen rr hd hv hr => ?_, fun klen rr hd h => ?_, fun h => ?_, fun h => ?_, fun h => ?_⟩
  · simp only [latency, decode_tblgen h]
  · cases rr with
    | none => exact latency_keyexp_ok hd (keyexpChecks_default (s := { State.reset with tblValid := tv }) hv) sv rounds
    | some rreq =>
      have hne : rreq ≠ 0 := fun h => hr (h ▸ rfl)
      exact latency_keyexp_ok hd (keyexpChecks_supplied (s := { State.reset with tblValid := tv }) hv hne) sv rounds
  · exact latency_keyexp_error hd (keyexpChecks_error h) sv rounds
  · simp only [latency, decode_enc h]
  · simp only [latency, decode_dec h]
  · simp only [latency, decode_illegal h]

end Sys2Proof.Proofs
end
